-- ==== Sys2Proof/Word.lean ====
section
/-! DEFINITION. The word types of the core (spec/00_scope.md R4: 8-bit registers, 16-bit words and counters, 12-bit
addresses; 30_encoding.md R51: 4-bit fields). All values are unsigned (00_scope.md 5.1). -/

namespace Sys2Proof

/-- A register, a timer or a memory byte: 8 bits. -/
abbrev Byte := BitVec 8

/-- An instruction word, the program counter, the index register, a stack slot, the keypad mask: 16 bits. -/
abbrev Word := BitVec 16

/-- The `nnn` field, a 12-bit address. -/
abbrev Addr := BitVec 12

/-- A 4-bit field: a register number (`x`, `y`), the draw height `n`, an opcode class. -/
abbrev Nibble := BitVec 4

/-- The flag register's number: `VF` is `V[15]` (10_state.md R11). -/
abbrev VF : Nibble := 0xF#4

end Sys2Proof
end

