-- ==== Sys2Proof/Syntax.lean ====
section
/-! DEFINITION. The instructions: one constructor per row of spec/opcode_table.json, in the table's order, carrying the
operand fields of the row's format (30_encoding.md R52, R55). Mnemonics are those of R64. -/

namespace Sys2Proof

/-- The 35 instructions of the opcode map, 30_encoding.md R55. `seReg` and `sneReg` also carry the four ignored bits of
format XYI (R60, log entry 14). -/
inductive Instr
  /-- `SYS nnn` (0nnn but 00E0 and 00EE), 41_control_flow.md R110 -/
  | sys (nnn : Addr)
  /-- `CLS` (00E0), 45_unsourced_cls_rnd.md R155 -/
  | cls
  /-- `RET` (00EE), 41_control_flow.md R109 -/
  | ret
  /-- `JP nnn` (1nnn), R106 -/
  | jp (nnn : Addr)
  /-- `CALL nnn` (2nnn), R108 -/
  | call (nnn : Addr)
  /-- `SE Vx,nn` (3xnn), R100 -/
  | seImm (x : Nibble) (nn : Byte)
  /-- `SNE Vx,nn` (4xnn), R101 -/
  | sneImm (x : Nibble) (nn : Byte)
  /-- `SE Vx,Vy` (5xy-), R102 -/
  | seReg (x y ignored : Nibble)
  /-- `LD Vx,nn` (6xnn), 40_arith_logic.md R80 -/
  | ldImm (x : Nibble) (nn : Byte)
  /-- `ADD Vx,nn` (7xnn), R81 -/
  | addImm (x : Nibble) (nn : Byte)
  /-- `LD Vx,Vy` (8xy0), R82 -/
  | ldReg (x y : Nibble)
  /-- `OR Vx,Vy` (8xy1), R83 -/
  | orReg (x y : Nibble)
  /-- `AND Vx,Vy` (8xy2), R84 -/
  | andReg (x y : Nibble)
  /-- `XOR Vx,Vy` (8xy3), R85 -/
  | xorReg (x y : Nibble)
  /-- `ADD Vx,Vy` (8xy4), R86 -/
  | addReg (x y : Nibble)
  /-- `SUB Vx,Vy` (8xy5), R87 -/
  | sub (x y : Nibble)
  /-- `SHR Vx,Vy` (8xy6), R89 -/
  | shr (x y : Nibble)
  /-- `SUBN Vx,Vy` (8xy7), R88 -/
  | subn (x y : Nibble)
  /-- `SHL Vx,Vy` (8xyE), R90 -/
  | shl (x y : Nibble)
  /-- `SNE Vx,Vy` (9xy-), 41_control_flow.md R103 -/
  | sneReg (x y ignored : Nibble)
  /-- `LD I,nnn` (Annn), 42_memory_index.md R120 -/
  | ldI (nnn : Addr)
  /-- `JP V0,nnn` (Bnnn), 41_control_flow.md R107 -/
  | jpV0 (nnn : Addr)
  /-- `RND Vx,nn` (Cxnn), 45_unsourced_cls_rnd.md R156 -/
  | rnd (x : Nibble) (nn : Byte)
  /-- `DRW Vx,Vy,n` (Dxyn), 44_draw.md R145 -/
  | drw (x y n : Nibble)
  /-- `SKP Vx` (Ex9E), 41_control_flow.md R104 -/
  | skp (x : Nibble)
  /-- `SKNP Vx` (ExA1), R105 -/
  | sknp (x : Nibble)
  /-- `LD Vx,DT` (Fx07), 43_timer_keypad.md R135 -/
  | ldVxDt (x : Nibble)
  /-- `LD Vx,K` (Fx0A), R138 -/
  | ldVxK (x : Nibble)
  /-- `LD DT,Vx` (Fx15), R136 -/
  | ldDtVx (x : Nibble)
  /-- `LD ST,Vx` (Fx18), R137 -/
  | ldStVx (x : Nibble)
  /-- `ADD I,Vx` (Fx1E), 42_memory_index.md R121 -/
  | addI (x : Nibble)
  /-- `LD F,Vx` (Fx29), R122 -/
  | ldF (x : Nibble)
  /-- `LD B,Vx` (Fx33), R123 -/
  | ldB (x : Nibble)
  /-- `LD [I],Vx` (Fx55), R124 -/
  | storeRegs (x : Nibble)
  /-- `LD Vx,[I]` (Fx65), R125 -/
  | loadRegs (x : Nibble)
  deriving DecidableEq, Repr

end Sys2Proof
end

