-- ==== Sys2Proof/Decode.lean ====
section
/-! DEFINITION. The Decoder's fields (spec/30_encoding.md R51), the opcode map (R54 to R61) as a total function from
words that rejects by name, and the encoder written from the same table (R52, R55). -/

namespace Sys2Proof

/-! ## The fields of a word, R51 -/

/-- `class`, bits 15:12. -/
def classOf (w : Word) : Nibble := w.extractLsb' 12 4

/-- `x`, bits 11:8. -/
def xOf (w : Word) : Nibble := w.extractLsb' 8 4

/-- `y`, bits 7:4. -/
def yOf (w : Word) : Nibble := w.extractLsb' 4 4

/-- `n`, bits 3:0. -/
def nOf (w : Word) : Nibble := w.extractLsb' 0 4

/-- `nn`, bits 7:0. -/
def nnOf (w : Word) : Byte := w.extractLsb' 0 8

/-- `nnn`, bits 11:0. -/
def nnnOf (w : Word) : Addr := w.extractLsb' 0 12

/-! ## The opcode map -/

/-- Why the opcode map gives a word no instruction. The first three are the Dispatcher's fallback (R61), an illegal word
of the class named; the last is not a word at all. -/
inductive Reject
  /-- class 8 with an `n` that selects no handler (R57) -/
  | class8 (n : Nibble)
  /-- class E with an `nn` that selects no handler (R58) -/
  | classE (nn : Byte)
  /-- class F with an `nn` that selects no handler (R59) -/
  | classF (nn : Byte)
  /-- fewer than two bytes: an instruction is exactly two (R50) -/
  | truncated
  deriving DecidableEq, Repr

/-- Class 0, discriminator `nnn` (R56): the two fixed words are tested first, every other value is SYS. -/
def decode0 (w : Word) : Instr :=
  if nnnOf w = 0x0E0#12 then .cls
  else if nnnOf w = 0x0EE#12 then .ret
  else .sys (nnnOf w)

/-- Class 8, discriminator `n` (R57). -/
def decode8 (w : Word) : Except Reject Instr :=
  match nOf w with
  | 0x0#4 => .ok (.ldReg (xOf w) (yOf w))
  | 0x1#4 => .ok (.orReg (xOf w) (yOf w))
  | 0x2#4 => .ok (.andReg (xOf w) (yOf w))
  | 0x3#4 => .ok (.xorReg (xOf w) (yOf w))
  | 0x4#4 => .ok (.addReg (xOf w) (yOf w))
  | 0x5#4 => .ok (.sub (xOf w) (yOf w))
  | 0x6#4 => .ok (.shr (xOf w) (yOf w))
  | 0x7#4 => .ok (.subn (xOf w) (yOf w))
  | 0xE#4 => .ok (.shl (xOf w) (yOf w))
  | n => .error (.class8 n)

/-- Class E, discriminator `nn` (R58). -/
def decodeE (w : Word) : Except Reject Instr :=
  match nnOf w with
  | 0x9E#8 => .ok (.skp (xOf w))
  | 0xA1#8 => .ok (.sknp (xOf w))
  | nn => .error (.classE nn)

/-- Class F, discriminator `nn` (R59). -/
def decodeF (w : Word) : Except Reject Instr :=
  match nnOf w with
  | 0x07#8 => .ok (.ldVxDt (xOf w))
  | 0x0A#8 => .ok (.ldVxK (xOf w))
  | 0x15#8 => .ok (.ldDtVx (xOf w))
  | 0x18#8 => .ok (.ldStVx (xOf w))
  | 0x1E#8 => .ok (.addI (xOf w))
  | 0x29#8 => .ok (.ldF (xOf w))
  | 0x33#8 => .ok (.ldB (xOf w))
  | 0x55#8 => .ok (.storeRegs (xOf w))
  | 0x65#8 => .ok (.loadRegs (xOf w))
  | nn => .error (.classF nn)

/-- The opcode map of R54 and R55 over the Decoder's fields, in two levels: the class, then for classes 0, 8, E and F
the second discriminator. Total, reads nothing but the word. CLS and RND decode whatever `ADMIT_CLS_RND` says; their
meanings raise the fallback's error when it is false (R60, log entry 4). -/
def decode (w : Word) : Except Reject Instr :=
  match classOf w with
  | 0x0#4 => .ok (decode0 w)
  | 0x1#4 => .ok (.jp (nnnOf w))
  | 0x2#4 => .ok (.call (nnnOf w))
  | 0x3#4 => .ok (.seImm (xOf w) (nnOf w))
  | 0x4#4 => .ok (.sneImm (xOf w) (nnOf w))
  | 0x5#4 => .ok (.seReg (xOf w) (yOf w) (nOf w))
  | 0x6#4 => .ok (.ldImm (xOf w) (nnOf w))
  | 0x7#4 => .ok (.addImm (xOf w) (nnOf w))
  | 0x8#4 => decode8 w
  | 0x9#4 => .ok (.sneReg (xOf w) (yOf w) (nOf w))
  | 0xA#4 => .ok (.ldI (nnnOf w))
  | 0xB#4 => .ok (.jpV0 (nnnOf w))
  | 0xC#4 => .ok (.rnd (xOf w) (nnOf w))
  | 0xD#4 => .ok (.drw (xOf w) (yOf w) (nOf w))
  | 0xE#4 => decodeE w
  | _ => decodeF w

/-- A word from its two bytes in memory order: the byte at the lower address gives bits 15:8 (20_memory.md R33). -/
def wordOfBytes (hi lo : Byte) : Word := (hi ++ lo).cast rfl

/-- Decoding from bytes in memory order: one instruction and the rest of the bytes. Every instruction is exactly two
bytes (R50). -/
def decodeBytes : List Byte → Except Reject (Instr × List Byte)
  | hi :: lo :: rest => (decode (wordOfBytes hi lo)).map fun i => (i, rest)
  | _ => .error .truncated

/-! ## The encoder -/

/-- Format NNN (R52): class, then the 12-bit `nnn`. FIXED words are of this layout with a constant `nnn`. -/
def wordNNN (c : Nibble) (nnn : Addr) : Word := (c ++ nnn).cast rfl

/-- Format XNN (R52): class, `x`, `nn`. Format XO is of this layout with a constant `nn`. -/
def wordXNN (c x : Nibble) (nn : Byte) : Word := (c ++ x ++ nn).cast rfl

/-- Formats XYN, XYI and XYO (R52): class, `x`, `y`, and the low nibble `n` (operand, ignored bits or sub-opcode). -/
def wordXYN (c x y n : Nibble) : Word := (c ++ x ++ y ++ n).cast rfl

/-- The word of an instruction, by the table of R55. -/
def encode : Instr → Word
  | .sys nnn => wordNNN 0x0 nnn
  | .cls => wordNNN 0x0 0x0E0
  | .ret => wordNNN 0x0 0x0EE
  | .jp nnn => wordNNN 0x1 nnn
  | .call nnn => wordNNN 0x2 nnn
  | .seImm x nn => wordXNN 0x3 x nn
  | .sneImm x nn => wordXNN 0x4 x nn
  | .seReg x y ignored => wordXYN 0x5 x y ignored
  | .ldImm x nn => wordXNN 0x6 x nn
  | .addImm x nn => wordXNN 0x7 x nn
  | .ldReg x y => wordXYN 0x8 x y 0x0
  | .orReg x y => wordXYN 0x8 x y 0x1
  | .andReg x y => wordXYN 0x8 x y 0x2
  | .xorReg x y => wordXYN 0x8 x y 0x3
  | .addReg x y => wordXYN 0x8 x y 0x4
  | .sub x y => wordXYN 0x8 x y 0x5
  | .shr x y => wordXYN 0x8 x y 0x6
  | .subn x y => wordXYN 0x8 x y 0x7
  | .shl x y => wordXYN 0x8 x y 0xE
  | .sneReg x y ignored => wordXYN 0x9 x y ignored
  | .ldI nnn => wordNNN 0xA nnn
  | .jpV0 nnn => wordNNN 0xB nnn
  | .rnd x nn => wordXNN 0xC x nn
  | .drw x y n => wordXYN 0xD x y n
  | .skp x => wordXNN 0xE x 0x9E
  | .sknp x => wordXNN 0xE x 0xA1
  | .ldVxDt x => wordXNN 0xF x 0x07
  | .ldVxK x => wordXNN 0xF x 0x0A
  | .ldDtVx x => wordXNN 0xF x 0x15
  | .ldStVx x => wordXNN 0xF x 0x18
  | .addI x => wordXNN 0xF x 0x1E
  | .ldF x => wordXNN 0xF x 0x29
  | .ldB x => wordXNN 0xF x 0x33
  | .storeRegs x => wordXNN 0xF x 0x55
  | .loadRegs x => wordXNN 0xF x 0x65

/-- The instruction this decoder reads from the word whose bits are the low `nbits` of `w`, laid out as the core stores
it, high byte first. -/
def decodeTableWord (nbits w : Nat) : Option Instr :=
  let v : Word := BitVec.ofNat 16 (w % 2 ^ nbits)
  match decodeBytes [v.extractLsb' 8 8, v.extractLsb' 0 8] with
  | .ok (i, _) => some i
  | .error _ => none

end Sys2Proof
end

