-- ==== Sys2Proof/Config.lean ====
section
/-! DEFINITION. What an implementation fixes: the four open parameters of spec/00_scope.md R5 as one structure of plain
data, their defaults, and the one free value of the spec, RND's byte. The fixed parameters of R4 are hard-coded, as R4
allows. -/

namespace Sys2Proof

/-- `SHIFT_SOURCE` (R5, 92_eei_decisions.md D9): the register SHR and SHL shift. -/
inductive ShiftSource
  /-- shift `V[x]` in place -/
  | x
  /-- shift `V[y]` into `V[x]` -/
  | y
  deriving DecidableEq, Repr

/-- `DRIVER_ON_ERROR` (R5, 60_exceptions.md R165, D15): what the driver does after a cycle that raised an error. -/
inductive OnError
  /-- the run is over and has gone wrong -/
  | halt
  /-- the driver adds 2 to `pc` and goes on -/
  | skip
  deriving DecidableEq, Repr

/-- The open parameters of 00_scope.md R5. A state carries one value of this type and no step changes it, so every
setting is modelled by the one step function (DESIGN CHOICE, log entry 1). -/
structure Config where
  /-- `SHIFT_SOURCE` (D9) -/
  shiftSource : ShiftSource
  /-- `ADMIT_CLS_RND` (D2): whether 00E0 and Cxnn execute or go to the Dispatcher's fallback -/
  admitClsRnd : Bool
  /-- `STRICT_EVEN_PC` (D7): whether a cycle at an odd `pc` is refused -/
  strictEvenPc : Bool
  /-- `DRIVER_ON_ERROR` (D15) -/
  driverOnError : OnError
  deriving DecidableEq, Repr

/-- The defaults of 00_scope.md R5. -/
def Config.specDefault : Config :=
  { shiftSource := .x, admitClsRnd := true, strictEvenPc := false, driverOnError := .halt }

/-- `draw8()` of 45_unsourced_cls_rnd.md R157: the byte the environment supplies at the k-th execution of RND, "under no
law". A free value (log entry 3): it has no body, so nothing can be proved of it but what holds for every byte. -/
opaque Config.draw8 : Nat → Byte

end Sys2Proof
end

