-- ==== Sys2Proof/Machine/State.lean ====
section
/-! DEFINITION. The state: the record MachineState of spec/10_state.md R10, field for field, and beside it the driver's
side (`env`), which is the model's own. The reasons a step can stop, and the state after reset (70_reset_and_hazards.md
R190). -/

namespace Sys2Proof.Machine

/-- The error conditions of the core, 60_exceptions.md R160: "all the synchronous exceptions the core has". Each records
the word and its address. Every piece of state is as it was when the cycle began (R164). With `DRIVER_ON_ERROR = halt`
the step answers the fault and the run has no further step (R165). -/
inductive Fault
  /-- Code 1, raised by the Dispatcher's fallback for an illegal word (R161), and by CLS and RND when `ADMIT_CLS_RND` is
  false. Safe: it is the spec's own error. -/
  | unimplementedOpcode (word address : Word)
  /-- Code 2, raised by CALL when the stack is full (R162). Safe: it is the spec's own error. -/
  | stackOverflow (word address : Word)
  /-- Code 3, raised by RET when the stack is empty (R163). Safe: it is the spec's own error. -/
  | stackUnderflow (word address : Word)
  deriving DecidableEq, Repr

/-- Where the model gives no meaning. All are safe: the model stops where hardware might go on. -/
inductive Refusal
  /-- An arm of `exec` without a meaning yet. Raised by no arm now. -/
  | notModelled (mnemonic : String)
  /-- A cycle at an odd `pc` with `STRICT_EVEN_PC` true, raised by `cycle` (10_state.md R22: "a refusal"). -/
  | oddPc
  /-- RET with `sp` above 16, raised by RET: no state of the machine is like that (10_state.md R18), so the spec gives no
  slot to read (log entry 11). Unreachable: the invariant keeps `sp` in 0..16. -/
  | stackPointerOutOfRange
  /-- A program image of more than 3584 bytes, raised by `loadRom` (70_reset_and_hazards.md R193: "a model refuse it"). -/
  | romTooLong
  deriving DecidableEq, Repr

/-- The status a cycle returns to the driver (60_exceptions.md R160): Ok, or one error condition. -/
inductive Status
  | ok
  | error (f : Fault)
  deriving DecidableEq, Repr

/-- What the driver and the input collaborator do, one at a time (00_scope.md R9). -/
inductive Event
  /-- the driver asks for one instruction cycle (30_encoding.md R62) -/
  | cycle
  /-- the driver ticks both timers (60_exceptions.md R172) -/
  | tick
  /-- the input collaborator sets the keypad register (60_exceptions.md R175) -/
  | keys (mask : Word)
  deriving DecidableEq, Repr

/-- The driver's side: the model's own fields, no part of MachineState. No handler writes any of them but RND, which
advances `draws` (log entries 1, 2, 3, 7). -/
structure Env where
  /-- the open parameters; no step changes them -/
  config : Config
  /-- the driver's pending events, oldest first; when there is none the driver asks for a cycle -/
  schedule : List Event
  /-- how many bytes RND has drawn: the index `Config.draw8` is applied to next -/
  draws : Nat
  /-- the status the driver last received, if any -/
  status : Option Status
  deriving DecidableEq, Repr

/-- Main memory as the bytes that differ from the reset contents: (address, byte) pairs, addresses strictly rising below
4096 (`Memory.wf` in Machine/Memory.lean). -/
abbrev Memory := List Host.Cell

/-- MachineState, 10_state.md R10, and the driver's side. -/
structure State where
  /-- main memory, 4096 bytes (20_memory.md R30) -/
  mem : Memory
  /-- the general registers V0..VF (10_state.md R11) -/
  V : Vector Byte 16
  /-- the index register (R15) -/
  I : Word
  /-- the program counter (R20) -/
  pc : Word
  /-- the return stack's slots (R18) -/
  stack : Vector Word 16
  /-- the stack pointer: the number of slots in use (R18) -/
  sp : Byte
  /-- the delay timer (R16) -/
  dt : Byte
  /-- the sound timer (R16) -/
  st : Byte
  /-- the keypad mask, bit k for key k (R17) -/
  keypad : Word
  /-- the framebuffer, row by row from the top; bit x of a row is the pixel of column x (R19, log entry 13) -/
  fb : Vector (BitVec 64) 32
  /-- the driver's side -/
  env : Env
  deriving DecidableEq, Repr

/-- Reset, 70_reset_and_hazards.md R190 with 10_state.md R24, R25, R27: everything 0, the font in memory (an unlisted
byte reads as its reset contents), `pc` at 0x200. The driver's side starts with the default parameters, no pending
event, no byte drawn and no status (log entry 16). -/
def State.reset : State :=
  { mem := []
    V := Vector.replicate 16 0
    I := 0
    pc := 0x0200
    stack := Vector.replicate 16 0
    sp := 0
    dt := 0
    st := 0
    keypad := 0
    fb := Vector.replicate 32 0
    env := { config := Config.specDefault, schedule := [], draws := 0, status := none } }

end Sys2Proof.Machine
end

