-- ==== Sys2Proof/Machine/Memory.lean ====
section
/-! DEFINITION. Main memory as data: what an unlisted byte reads as, one byte read, one byte written, and the canonical
form. Addresses here are already reduced to 0..4095 (spec/20_memory.md R31); the masking is in Machine/Ops.lean. -/

namespace Sys2Proof.Machine

/-- The Font Table, 10_state.md R25: 16 glyphs of 5 bytes. The spec supplies these bytes from general knowledge (D18,
log entry 6). -/
def fontTable : List Byte :=
  [0xF0, 0x90, 0x90, 0x90, 0xF0,  0x20, 0x60, 0x20, 0x20, 0x70,
   0xF0, 0x10, 0xF0, 0x80, 0xF0,  0xF0, 0x10, 0xF0, 0x10, 0xF0]
  ++ [0x90, 0x90, 0xF0, 0x10, 0x10,  0xF0, 0x80, 0xF0, 0x10, 0xF0,
   0xF0, 0x80, 0xF0, 0x90, 0xF0,  0xF0, 0x10, 0x20, 0x40, 0x40]
  ++ [0xF0, 0x90, 0xF0, 0x90, 0xF0,  0xF0, 0x90, 0xF0, 0x10, 0xF0,
   0xF0, 0x90, 0xF0, 0x90, 0x90,  0xE0, 0x90, 0xE0, 0x90, 0xE0]
  ++ [0xF0, 0x80, 0x80, 0x80, 0xF0,  0xE0, 0x90, 0x90, 0x90, 0xE0,
   0xF0, 0x80, 0xF0, 0x80, 0xF0,  0xF0, 0x80, 0xF0, 0x80, 0x80]

/-- The reset contents of memory, which is what an unlisted address reads as: the Font Table at 0x050..0x09F, 0
elsewhere (10_state.md R24, R25). -/
def resetByte (a : Nat) : Byte :=
  if 0x050 ≤ a ∧ a < 0x0A0 then fontTable.getD (a - 0x050) 0 else 0

/-- The byte at an address. -/
def Memory.read : Memory → Nat → Byte
  | [], a => resetByte a
  | (b, v) :: m, a => if b = a then v else Memory.read m a

/-- The entries of a memory but those for one address. -/
def Memory.erase (m : Memory) (a : Nat) : Memory := m.filter fun c => c.1 != a

/-- An entry put before the first entry of a higher address. -/
def Memory.insert : Memory → Nat → Byte → Memory
  | [], a, v => [(a, v)]
  | c :: m, a, v => if a < c.1 then (a, v) :: c :: m else c :: Memory.insert m a v

/-- Memory after one byte is written; a byte equal to the reset contents is not listed. -/
def Memory.write (m : Memory) (a : Nat) (v : Byte) : Memory :=
  if v = resetByte a then m.erase a else (m.erase a).insert a v

/-- The canonical form from an address on: addresses strictly rising and below 4096, no entry equal to the reset
contents. -/
def Memory.wfFrom : Nat → Memory → Bool
  | _, [] => true
  | lo, (a, v) :: m => decide (lo ≤ a) && decide (a < 4096) && (v != resetByte a) && Memory.wfFrom (a + 1) m

/-- The canonical form, under which equal memories are equal lists. -/
def Memory.wf (m : Memory) : Bool := Memory.wfFrom 0 m

end Sys2Proof.Machine
end

