-- ==== Sys2Proof/Machine/Ops.lean ====
section
/-! DEFINITION. The named operations over registers, memory, stack, screen and program counter that every meaning is
written in; raising an error condition; the end of an instruction cycle (spec/00_scope.md R6, 30_encoding.md R62). -/

namespace Sys2Proof.Machine

/-! ## One field at a time -/

/-- `pc <- t`. -/
def State.setPc (s : State) (t : Word) : State := { s with pc := t }

/-- `I <- w`. -/
def State.setI (s : State) (w : Word) : State := { s with I := w }

/-- `sp <- n`. -/
def State.setSp (s : State) (n : Byte) : State := { s with sp := n }

/-- `dt <- b`. -/
def State.setDt (s : State) (b : Byte) : State := { s with dt := b }

/-- `st <- b`. -/
def State.setSt (s : State) (b : Byte) : State := { s with st := b }

/-- The keypad register set from outside (60_exceptions.md R175). -/
def State.setKeypad (s : State) (mask : Word) : State := { s with keypad := mask }

/-- The whole framebuffer replaced. -/
def State.setFb (s : State) (fb : Vector (BitVec 64) 32) : State := { s with fb := fb }

/-- The whole memory replaced. -/
def State.setMem (s : State) (m : Memory) : State := { s with mem := m }

/-- The driver's side replaced. -/
def State.setEnv (s : State) (e : Env) : State := { s with env := e }

/-! ## General registers (10_state.md R11) -/

/-- A register number indexes the sixteen registers: every value of the field names one (R11). -/
theorem regIndex_lt (r : Nibble) : r.toNat < 16 := r.isLt

/-- `V[r]`. -/
def State.reg (s : State) (r : Nibble) : Byte := s.V[r.toNat]'(regIndex_lt r)

/-- `V[r] <- b`. No register is hard-wired (R11). -/
def State.setReg (s : State) (r : Nibble) (b : Byte) : State :=
  { s with V := s.V.set r.toNat b (regIndex_lt r) }

/-- A flag value as a register holds it: 0x00 or 0x01 (R13). -/
def flagByte (f : Bool) : Byte := if f then 1 else 0

/-- A flag-writing handler's two writes: the result to `V[x]`, then the flag to `VF`, last, so that with `x = 15` the
flag wins (R14). -/
def State.setRegAndFlag (s : State) (x : Nibble) (result : Byte) (flag : Bool) : State :=
  (s.setReg x result).setReg VF (flagByte flag)

/-! ## Main memory (00_scope.md R6, 20_memory.md R31) -/

/-- `MemRead(a, 1)`: the address is reduced modulo 4096 after any offset was added. -/
def State.memRead (s : State) (a : Nat) : Byte := s.mem.read (a % 4096)

/-- `MemWrite(a, 1, v)`. -/
def State.memWrite (s : State) (a : Nat) (v : Byte) : State := s.setMem (s.mem.write (a % 4096) v)

/-- `MemRead(pc, 2)`: the instruction word at `pc`, big-endian, each byte address reduced on its own (20_memory.md
R33). -/
def State.fetchWord (s : State) : Word :=
  wordOfBytes (s.memRead s.pc.toNat) (s.memRead (s.pc.toNat + 1))

/-! ## The return stack (10_state.md R18) -/

/-- The slot numbered `k`, where there is one. -/
def State.slot (s : State) (k : Nat) : Option Word := s.stack[k]?

/-- `stack[sp] <- t; sp <- sp + 1`, the push of CALL. -/
def State.push (s : State) (t : Word) : State :=
  { s with stack := s.stack.setIfInBounds s.sp.toNat t, sp := s.sp + 1 }

/-! ## The framebuffer (10_state.md R19, 44_draw.md R146) -/

/-- A framebuffer's pixel at column `x` and row `y`, both reduced to the grid (R146); true is "set". -/
def fbPixel (fb : Vector (BitVec 64) 32) (x y : Nat) : Bool :=
  (fb[y % 32]'(Nat.mod_lt _ (by decide))).getLsbD (x % 64)

/-- The pixel of column `x` and row `y`, as the renderer reads it. -/
def State.pixel (s : State) (x y : Nat) : Bool := fbPixel s.fb x y

/-- The framebuffer with the pixel of column `x` and row `y`, both reduced to the grid, XORed with `bit` (R145, R146). -/
def xorPixel (fb : Vector (BitVec 64) 32) (x y : Nat) (bit : Bool) : Vector (BitVec 64) 32 :=
  if bit then
    fb.set (y % 32) (fb[y % 32]'(Nat.mod_lt _ (by decide)) ^^^ BitVec.twoPow 64 (x % 64)) (Nat.mod_lt _ (by decide))
  else fb

/-! ## Raising an error condition, and the end of a cycle -/

/-- `raise E(w, pc)` (00_scope.md R6): the cycle ends with status E and every piece of state as it was when the cycle
began. Nothing is saved and `pc` goes nowhere (60_exceptions.md R164), so the outcome carries the condition alone. There
is no return from it (R165). -/
def raise (e : Word → Word → Fault) (w : Word) (s : State) : Host.Outcome State Fault Refusal := .fault (e w s.pc)

/-- The retarget indicator (30_encoding.md R63): whether the handler set `pc` itself. -/
inductive Retarget
  /-- `retarget = true`: the base advance is suppressed -/
  | suppress
  /-- `retarget = false`: the base advance follows -/
  | advance
  deriving DecidableEq, Repr

/-- The end of a cycle whose handler ran to its end and left `s`: the base advance unless the handler retargeted
(30_encoding.md R62). -/
def complete (r : Retarget) (s : State) : Host.Outcome State Fault Refusal :=
  match r with
  | .suppress => .next s
  | .advance => .next (s.setPc (s.pc + 2))

/-- The action of a skip handler (41_control_flow.md R111): 2 more on `pc` when the condition holds. -/
def State.skipIf (s : State) (c : Bool) : State := if c then s.setPc (s.pc + 2) else s

end Sys2Proof.Machine
end

