-- ==== Sys2Proof/Machine/Operands.lean ====
section
/-! DEFINITION. The operand forms of the core: the shift source, the key number, the effective address, the font
address, the decimal digits, the lowest key down, the sprite bits. -/

namespace Sys2Proof.Machine

/-- The source of SHR and SHL: `V[x]` or `V[y]` by `SHIFT_SOURCE` (40_arith_logic.md R89, R90). -/
def State.shiftOperand (s : State) (x y : Nibble) : Byte :=
  match s.env.config.shiftSource with
  | .x => s.reg x
  | .y => s.reg y

/-- The key number of SKP and SKNP: the low nibble of a register (41_control_flow.md R104, D13). -/
def keyNumber (b : Byte) : Nat := b.toNat % 16

/-- Whether key `k` is down: bit `k` of the keypad register (10_state.md R17). -/
def State.keyDown (s : State) (k : Nat) : Bool := s.keypad.getLsbD k

/-- The least `k` in 0..15 with bit `k` set, if any (43_timer_keypad.md R138, D14). -/
def lowestKey (keypad : Word) : Option Nat := (List.range 16).find? fun k => keypad.getLsbD k

/-- The effective address of byte `k` of a transfer: `(I + k) mod 4096` (42_memory_index.md R126). -/
def State.effAddr (s : State) (k : Nat) : Nat := (s.I.toNat + k) % 4096

/-- The glyph address of `LD F,Vx`: `0x050 + 5 * (b & 0x0F)` (42_memory_index.md R122). -/
def fontAddress (b : Byte) : Word := BitVec.ofNat 16 (0x050 + 5 * (b.toNat % 16))

/-- The hundreds digit of a byte (42_memory_index.md R123). -/
def hundreds (b : Byte) : Byte := BitVec.ofNat 8 (b.toNat / 100)

/-- The tens digit of a byte (R123). -/
def tens (b : Byte) : Byte := BitVec.ofNat 8 (b.toNat / 10 % 10)

/-- The ones digit of a byte (R123). -/
def ones (b : Byte) : Byte := BitVec.ofNat 8 (b.toNat % 10)

/-- Sprite pixel (column `c`, row `r`): bit `7 - c` of the byte at `I + r`, most significant bit leftmost (44_draw.md
R147). -/
def State.spriteBit (s : State) (r c : Nat) : Bool := (s.memRead (s.I.toNat + r)).getLsbD (7 - c)

end Sys2Proof.Machine
end

