-- ==== Sys2Proof/Machine/Flags.lean ====
section
/-! DEFINITION. Results and flags of the flag-writing arithmetic (spec/10_state.md R13, 40_arith_logic.md R86 to R91),
on unsigned integers narrowed at the end. -/

namespace Sys2Proof.Machine

/-- `(a + b) mod 256` (R91). -/
def addResult (a b : Byte) : Byte := BitVec.ofNat 8 (a.toNat + b.toNat)

/-- Carry: `a + b > 255` (R86). -/
def addFlag (a b : Byte) : Bool := decide (a.toNat + b.toNat > 255)

/-- `(a - b) mod 256` (R91). -/
def subResult (a b : Byte) : Byte := BitVec.ofNat 8 (a.toNat + 256 - b.toNat)

/-- The flag of a subtraction: `a > b`, strictly (R87, 90_conflicts.md C5). -/
def subFlag (a b : Byte) : Bool := decide (a.toNat > b.toNat)

/-- `floor(a / 2)` (R89). -/
def shrResult (a : Byte) : Byte := BitVec.ofNat 8 (a.toNat / 2)

/-- Bit 0 of the source before the shift (R89). -/
def shrFlag (a : Byte) : Bool := a.getLsbD 0

/-- `(2 * a) mod 256` (R90). -/
def shlResult (a : Byte) : Byte := BitVec.ofNat 8 (2 * a.toNat)

/-- Bit 7 of the source before the shift (R90). -/
def shlFlag (a : Byte) : Bool := a.getLsbD 7

end Sys2Proof.Machine
end

