-- ==== Sys2Proof/Machine/Arith.lean ====
section
/-! DEFINITION. The arithmetic and logic instructions, spec/40_arith_logic.md. None touches `pc`, memory, stack, timers,
keypad or screen; every one reads its sources before it writes (R92). -/

namespace Sys2Proof.Machine

/-- `LD Vx,nn`, R80. -/
def execLdImm (x : Nibble) (nn : Byte) (s : State) : Host.Outcome State Fault Refusal :=
  complete .advance (s.setReg x nn)

/-- `ADD Vx,nn`, R81: the carry is dropped, `VF` is not written as a flag. -/
def execAddImm (x : Nibble) (nn : Byte) (s : State) : Host.Outcome State Fault Refusal :=
  complete .advance (s.setReg x (addResult (s.reg x) nn))

/-- `LD Vx,Vy`, R82. -/
def execLdReg (x y : Nibble) (s : State) : Host.Outcome State Fault Refusal :=
  complete .advance (s.setReg x (s.reg y))

/-- `OR Vx,Vy`, R83: no flag. -/
def execOr (x y : Nibble) (s : State) : Host.Outcome State Fault Refusal :=
  complete .advance (s.setReg x (s.reg x ||| s.reg y))

/-- `AND Vx,Vy`, R84: no flag. -/
def execAnd (x y : Nibble) (s : State) : Host.Outcome State Fault Refusal :=
  complete .advance (s.setReg x (s.reg x &&& s.reg y))

/-- `XOR Vx,Vy`, R85: no flag. -/
def execXor (x y : Nibble) (s : State) : Host.Outcome State Fault Refusal :=
  complete .advance (s.setReg x (s.reg x ^^^ s.reg y))

/-- `ADD Vx,Vy`, R86. -/
def execAddReg (x y : Nibble) (s : State) : Host.Outcome State Fault Refusal :=
  complete .advance (s.setRegAndFlag x (addResult (s.reg x) (s.reg y)) (addFlag (s.reg x) (s.reg y)))

/-- `SUB Vx,Vy`, R87. -/
def execSub (x y : Nibble) (s : State) : Host.Outcome State Fault Refusal :=
  complete .advance (s.setRegAndFlag x (subResult (s.reg x) (s.reg y)) (subFlag (s.reg x) (s.reg y)))

/-- `SUBN Vx,Vy`, R88: `V[y] - V[x]`, stored in `V[x]`. -/
def execSubn (x y : Nibble) (s : State) : Host.Outcome State Fault Refusal :=
  complete .advance (s.setRegAndFlag x (subResult (s.reg y) (s.reg x)) (subFlag (s.reg y) (s.reg x)))

/-- `SHR Vx,Vy`, R89. -/
def execShr (x y : Nibble) (s : State) : Host.Outcome State Fault Refusal :=
  complete .advance (s.setRegAndFlag x (shrResult (s.shiftOperand x y)) (shrFlag (s.shiftOperand x y)))

/-- `SHL Vx,Vy`, R90. -/
def execShl (x y : Nibble) (s : State) : Host.Outcome State Fault Refusal :=
  complete .advance (s.setRegAndFlag x (shlResult (s.shiftOperand x y)) (shlFlag (s.shiftOperand x y)))

end Sys2Proof.Machine
end

