-- ==== Sys2Proof/Machine/ClsRnd.lean ====
section
/-! DEFINITION. CLS and RND, spec/45_unsourced_cls_rnd.md, which the spec supplies from general knowledge under
`ADMIT_CLS_RND` (log entry 4). With it false both words go to the Dispatcher's fallback (30_encoding.md R60). -/

namespace Sys2Proof.Machine

/-- `CLS`, R155. -/
def execCls (s : State) : Host.Outcome State Fault Refusal :=
  if s.env.config.admitClsRnd then complete .advance (s.setFb (Vector.replicate 32 0))
  else raise .unimplementedOpcode (encode .cls) s

/-- `RND Vx,nn`, R156: the byte drawn is `Config.draw8` at the next index, a free value (R157, log entry 3). -/
def execRnd (x : Nibble) (nn : Byte) (s : State) : Host.Outcome State Fault Refusal :=
  if s.env.config.admitClsRnd then
    complete .advance
      ((s.setReg x (Config.draw8 s.env.draws &&& nn)).setEnv { s.env with draws := s.env.draws + 1 })
  else raise .unimplementedOpcode (encode (.rnd x nn)) s

end Sys2Proof.Machine
end

