-- ==== Sys2Proof/Machine/Control.lean ====
section
/-! DEFINITION. The control-flow instructions, spec/41_control_flow.md: the six skips, the jumps, call and return. The
program counter a meaning reads is the address of the instruction itself (00_scope.md R7). -/

namespace Sys2Proof.Machine

/-- `SE Vx,nn`, R100. -/
def execSeImm (x : Nibble) (nn : Byte) (s : State) : Host.Outcome State Fault Refusal :=
  complete .advance (s.skipIf (s.reg x == nn))

/-- `SNE Vx,nn`, R101. -/
def execSneImm (x : Nibble) (nn : Byte) (s : State) : Host.Outcome State Fault Refusal :=
  complete .advance (s.skipIf (s.reg x != nn))

/-- `SE Vx,Vy`, R102. -/
def execSeReg (x y : Nibble) (s : State) : Host.Outcome State Fault Refusal :=
  complete .advance (s.skipIf (s.reg x == s.reg y))

/-- `SNE Vx,Vy`, R103. -/
def execSneReg (x y : Nibble) (s : State) : Host.Outcome State Fault Refusal :=
  complete .advance (s.skipIf (s.reg x != s.reg y))

/-- `SKP Vx`, R104. -/
def execSkp (x : Nibble) (s : State) : Host.Outcome State Fault Refusal :=
  complete .advance (s.skipIf (s.keyDown (keyNumber (s.reg x))))

/-- `SKNP Vx`, R105. -/
def execSknp (x : Nibble) (s : State) : Host.Outcome State Fault Refusal :=
  complete .advance (s.skipIf (!s.keyDown (keyNumber (s.reg x))))

/-- `JP nnn`, R106. -/
def execJp (nnn : Addr) (s : State) : Host.Outcome State Fault Refusal :=
  complete .suppress (s.setPc (nnn.setWidth 16))

/-- `JP V0,nnn`, R107: the sum is not reduced to 12 bits in `pc` (D8). -/
def execJpV0 (nnn : Addr) (s : State) : Host.Outcome State Fault Refusal :=
  complete .suppress (s.setPc (nnn.setWidth 16 + (s.reg 0).setWidth 16))

/-- `SYS nnn`, R110: an alias of the absolute jump. -/
def execSys (nnn : Addr) (s : State) : Host.Outcome State Fault Refusal :=
  complete .suppress (s.setPc (nnn.setWidth 16))

/-- `CALL nnn`, R108: the address after the CALL is pushed (90_conflicts.md C2); a full stack raises StackOverflow before
anything is written. -/
def execCall (nnn : Addr) (s : State) : Host.Outcome State Fault Refusal :=
  if s.sp.toNat ≥ 16 then raise .stackOverflow (encode (.call nnn)) s
  else complete .suppress ((s.push (s.pc + 2)).setPc (nnn.setWidth 16))

/-- `RET`, R109: an empty stack raises StackUnderflow before anything is changed; the slot popped keeps its value (R18).
With `sp` above 16, which no state of the machine has, there is no slot to read (log entry 11). -/
def execRet (s : State) : Host.Outcome State Fault Refusal :=
  if s.sp = 0 then raise .stackUnderflow (encode .ret) s
  else
    match s.slot (s.sp.toNat - 1) with
    | some t => complete .suppress ((s.setSp (s.sp - 1)).setPc t)
    | none => .refused .stackPointerOutOfRange

end Sys2Proof.Machine
end

