-- ==== Sys2Proof/Machine/Draw.lean ====
section
/-! DEFINITION. The Draw Engine and `DRW Vx,Vy,n`, spec/44_draw.md: the loops of R145 over rows and columns, carrying the
framebuffer and the collision flag. -/

namespace Sys2Proof.Machine

/-- One sprite pixel: column `c` of row `r`, the sprite's origin at column `ox` and row `oy`. The collision is judged on
the pixel before the XOR. -/
def drawPixel (s : State) (ox oy r : Nat) (acc : Vector (BitVec 64) 32 × Bool) (c : Nat) :
    Vector (BitVec 64) 32 × Bool :=
  (xorPixel acc.1 (ox + c) (oy + r) (s.spriteBit r c),
   acc.2 || (s.spriteBit r c && fbPixel acc.1 (ox + c) (oy + r)))

/-- One sprite row: its 8 pixels, left to right. -/
def drawRow (s : State) (ox oy : Nat) (acc : Vector (BitVec 64) 32 × Bool) (r : Nat) : Vector (BitVec 64) 32 × Bool :=
  (List.range 8).foldl (drawPixel s ox oy r) acc

/-- A sprite of `n` rows, top row first, onto the state's framebuffer; the flag starts at 0 (R145). -/
def drawSprite (s : State) (ox oy n : Nat) : Vector (BitVec 64) 32 × Bool :=
  (List.range n).foldl (drawRow s ox oy) (s.fb, false)

/-- `DRW Vx,Vy,n`, R145: the origin is read before `VF` is written (D10); `VF` is always written (D11). -/
def execDrw (x y n : Nibble) (s : State) : Host.Outcome State Fault Refusal :=
  let drawn := drawSprite s (s.reg x).toNat (s.reg y).toNat n.toNat
  complete .advance ((s.setFb drawn.1).setReg VF (flagByte drawn.2))

end Sys2Proof.Machine
end

