-- ==== Sys2Proof/Machine/MemIndex.lean ====
section
/-! DEFINITION. The index-register and memory-transfer instructions, spec/42_memory_index.md. `I` is never changed by a
transfer (R126); no flag is written; no address faults. -/

namespace Sys2Proof.Machine

/-- `LD I,nnn`, R120. -/
def execLdI (nnn : Addr) (s : State) : Host.Outcome State Fault Refusal :=
  complete .advance (s.setI (nnn.setWidth 16))

/-- `ADD I,Vx`, R121: modulo 4096, no flag (D26). -/
def execAddI (x : Nibble) (s : State) : Host.Outcome State Fault Refusal :=
  complete .advance (s.setI (BitVec.ofNat 16 ((s.I.toNat + (s.reg x).toNat) % 4096)))

/-- `LD F,Vx`, R122. -/
def execLdF (x : Nibble) (s : State) : Host.Outcome State Fault Refusal :=
  complete .advance (s.setI (fontAddress (s.reg x)))

/-- `LD B,Vx`, R123: hundreds, tens and ones to `I`, `I + 1`, `I + 2`. -/
def execLdB (x : Nibble) (s : State) : Host.Outcome State Fault Refusal :=
  let v := s.reg x
  complete .advance
    (((s.memWrite (s.effAddr 0) (hundreds v)).memWrite (s.effAddr 1) (tens v)).memWrite (s.effAddr 2) (ones v))

/-- The first `k` stores of `LD [I],Vx`, in ascending order. -/
def State.storeFirst (s : State) : Nat → State
  | 0 => s
  | k + 1 => (s.storeFirst k).memWrite (s.effAddr k) (s.reg (BitVec.ofNat 4 k))

/-- `LD [I],Vx`, R124: `V0..Vx` inclusive. -/
def execStoreRegs (x : Nibble) (s : State) : Host.Outcome State Fault Refusal :=
  complete .advance (s.storeFirst (x.toNat + 1))

/-- The first `k` loads of `LD Vx,[I]`, in ascending order. -/
def State.loadFirst (s : State) : Nat → State
  | 0 => s
  | k + 1 => (s.loadFirst k).setReg (BitVec.ofNat 4 k) (s.memRead (s.effAddr k))

/-- `LD Vx,[I]`, R125: `V0..Vx` inclusive. -/
def execLoadRegs (x : Nibble) (s : State) : Host.Outcome State Fault Refusal :=
  complete .advance (s.loadFirst (x.toNat + 1))

end Sys2Proof.Machine
end

