-- ==== Sys2Proof/Machine/TimerKeypad.lean ====
section
/-! DEFINITION. The timer moves and the key wait, spec/43_timer_keypad.md. -/

namespace Sys2Proof.Machine

/-- `LD Vx,DT`, R135. -/
def execLdVxDt (x : Nibble) (s : State) : Host.Outcome State Fault Refusal :=
  complete .advance (s.setReg x s.dt)

/-- `LD DT,Vx`, R136. -/
def execLdDtVx (x : Nibble) (s : State) : Host.Outcome State Fault Refusal :=
  complete .advance (s.setDt (s.reg x))

/-- `LD ST,Vx`, R137. -/
def execLdStVx (x : Nibble) (s : State) : Host.Outcome State Fault Refusal :=
  complete .advance (s.setSt (s.reg x))

/-- `LD Vx,K`, R138: with no key down the handler takes 2 off `pc` and the base advance brings it back, so the same
instruction runs again; otherwise the lowest key down goes to `V[x]`. -/
def execLdVxK (x : Nibble) (s : State) : Host.Outcome State Fault Refusal :=
  match lowestKey s.keypad with
  | none => complete .advance (s.setPc (s.pc - 2))
  | some k => complete .advance (s.setReg x (BitVec.ofNat 8 k))

end Sys2Proof.Machine
end

