-- ==== Sys2Proof/Machine/Driver.lean ====
section
/-! DEFINITION. What the driver, the input collaborator and the renderer do to the core between cycles, and what the
driver does with a cycle's status (spec/60_exceptions.md, 70_reset_and_hazards.md R193). -/

namespace Sys2Proof.Machine

/-- The numeric code of a status, 60_exceptions.md R160. -/
def Status.code : Status → Nat
  | .ok => 0
  | .error (.unimplementedOpcode _ _) => 1
  | .error (.stackOverflow _ _) => 2
  | .error (.stackUnderflow _ _) => 3

/-- One countdown step of a timer: minus 1, floor 0 (R172). -/
def countDown (t : Byte) : Byte := if t = 0 then 0 else t - 1

/-- The timer tick, R172: both timers, nothing else. -/
def State.tick (s : State) : State := (s.setDt (countDown s.dt)).setSt (countDown s.st)

/-- The driver's pending events replaced. -/
def State.setSchedule (s : State) (l : List Event) : State := s.setEnv { s.env with schedule := l }

/-- The status the driver received (R160). -/
def State.setStatus (s : State) (st : Status) : State := s.setEnv { s.env with status := some st }

/-- What follows a cycle that began in state `s`: a completed cycle returns Ok; after an error the driver halts, and the
fault stands, or adds 2 to `pc` of the unchanged state and goes on (R164, R165, log entry 7). -/
def afterCycle (s : State) : Host.Outcome State Fault Refusal → Host.Outcome State Fault Refusal
  | .next t => .next (t.setStatus .ok)
  | .fault f =>
    match s.env.config.driverOnError with
    | .halt => .fault f
    | .skip => .next ((s.setPc (s.pc + 2)).setStatus (.error f))
  | .refused r => .refused r

/-- Bytes written at consecutive addresses from `a`. -/
def State.writeBytes (s : State) (a : Nat) : List Byte → State
  | [] => s
  | b :: bs => (s.memWrite a b).writeBytes (a + 1) bs

/-- The ROM load, 70_reset_and_hazards.md R193: the image from 0x200 on; an image of more than 3584 bytes is refused
(D24). -/
def loadRom (rom : List Byte) (s : State) : Host.Outcome State Fault Refusal :=
  if rom.length > 3584 then .refused .romTooLong else .next (s.writeBytes 0x200 rom)

/-- Boot: reset, then the ROM load (R193); the state in which the first cycle runs. -/
def boot (rom : List Byte) : Host.Outcome State Fault Refusal := loadRom rom State.reset

/-- The framebuffer as the renderer sees it, 60_exceptions.md R177: 32 rows of 64 pixels, row-major. -/
def State.grid (s : State) : List (List Bool) :=
  (List.range 32).map fun y => (List.range 64).map fun x => s.pixel x y

end Sys2Proof.Machine
end

