-- ==== Sys2Proof/Machine/Cycle.lean ====
section
/-! DEFINITION. The instruction cycle, spec/30_encoding.md R62. -/

namespace Sys2Proof.Machine

/-- Fetch, decode, dispatch: the instruction of the word at `pc`, or the Dispatcher's fallback for an illegal word (R61,
60_exceptions.md R161). -/
def dispatchWord (s : State) : Host.Outcome State Fault Refusal :=
  match decode s.fetchWord with
  | .ok i => exec i s
  | .error _ => raise .unimplementedOpcode s.fetchWord s

/-- One instruction cycle with what the driver does with its status. With `STRICT_EVEN_PC` true a cycle at an odd `pc` is
refused (10_state.md R22). -/
def cycle (s : State) : Host.Outcome State Fault Refusal :=
  if s.env.config.strictEvenPc && s.pc.getLsbD 0 then .refused .oddPc
  else afterCycle s (dispatchWord s)

/-- A word stored where the next cycle fetches: two bytes at `pc`, high byte first (20_memory.md R33). -/
def State.placeWord (s : State) (w : Word) : State :=
  s.writeBytes s.pc.toNat [w.extractLsb' 8 8, w.extractLsb' 0 8]

end Sys2Proof.Machine
end

