-- ==== Sys2Proof/Machine/Step.lean ====
section
/-! DEFINITION. One step of the machine: the driver's next event, a cycle when none is pending (spec/00_scope.md R8, R9,
log entry 2). -/

namespace Sys2Proof.Machine

/-- One event: an instruction cycle (30_encoding.md R62), a timer tick (60_exceptions.md R172) or a keypad update (R175).
Each is atomic and none falls inside another (20_memory.md R40). -/
def step (s : State) : Host.Outcome State Fault Refusal :=
  match s.env.schedule with
  | [] => cycle s
  | .cycle :: rest => cycle (s.setSchedule rest)
  | .tick :: rest => .next (s.setSchedule rest).tick
  | .keys mask :: rest => .next ((s.setSchedule rest).setKeypad mask)

/-- The state with the instruction whose low `nbits` bits are those of `w` placed where the next cycle fetches, and a
cycle put first if other events are pending, so that the very next step runs it (log entry 12). -/
def State.withFetchWord (s : State) (nbits w : Nat) : State :=
  let placed := s.placeWord (BitVec.ofNat 16 (w % 2 ^ nbits))
  match s.env.schedule with
  | [] => placed
  | e :: rest => placed.setSchedule (.cycle :: e :: rest)

end Sys2Proof.Machine
end

