-- ==== Sys2Proof/Safety.lean ====
section
/-! DEFINITION. The terms claims are stated in: what the spec lets one observe of a state (`view`), the invariant of the
machine, the parked state that ends a run, and the sprite as a picture. -/

namespace Sys2Proof.Machine

/-- Everything the spec lets one say of a state, read through the model's own reads. A statement
`view t = { view s with regs := …, pc := … }` says what the named parts become and that EVERY other part, each register,
each byte of memory at each address, each stack slot and each pixel, is as it was. -/
@[ext] structure View where
  /-- register `r` -/
  regs : Nibble → Byte
  I : Word
  pc : Word
  sp : Byte
  /-- stack slot `k`, none from 16 on -/
  slot : Nat → Option Word
  dt : Byte
  st : Byte
  keypad : Word
  /-- the pixel of column `x` and row `y`, coordinates reduced to the grid -/
  pixel : Nat → Nat → Bool
  /-- the byte `MemRead(a, 1)` gives, for every `a` -/
  byte : Nat → Byte
  /-- the driver's side -/
  env : Env

/-- What is observed of a state. -/
def view (s : State) : View :=
  { regs := s.reg, I := s.I, pc := s.pc, sp := s.sp, slot := s.slot, dt := s.dt, st := s.st, keypad := s.keypad
    pixel := s.pixel, byte := s.memRead, env := s.env }

/-- The invariant of the machine: memory in canonical form, `I` in 0..0x0FFF (10_state.md R15), `sp` in 0..16 (R18). -/
abbrev State.Inv (s : State) : Prop := s.mem.wf = true ∧ s.I.toNat < 4096 ∧ s.sp.toNat ≤ 16

/-- A parked state, 70_reset_and_hazards.md R198: the word at `pc` is `JP nnn` with `nnn = pc`. The end of a run is the
first such state reached; a run that met an error under `DRIVER_ON_ERROR = halt` has no state after it. -/
abbrev State.parked (s : State) : Prop := s.pc.toNat ≤ 0x0FFF ∧ s.fetchWord = 0x1000#16 + s.pc

/-- Whether a state's cycle is not refused for an odd `pc` (10_state.md R22). -/
abbrev State.fetchable (s : State) : Prop := s.env.config.strictEvenPc = false ∨ s.pc.toNat % 2 = 0

/-- Instruction `i` run in state `s` COMPLETES: `exec` answers a next state, and the view of that state is `v`. -/
def Completes (i : Instr) (s : State) (v : View) : Prop := ∃ t, exec i s = .next t ∧ view t = v

/-- The driver asks for a cycle in state `s`, and the cycle runs from `s'`: no event is pending, or a cycle is the next
one and is taken off the schedule (00_scope.md R9). -/
def CycleFrom (s s' : State) : Prop :=
  (s.env.schedule = [] ∧ s' = s) ∨ ∃ rest, s.env.schedule = .cycle :: rest ∧ s' = s.setSchedule rest

/-- A step from `s` that runs instruction `i`: the driver asks for a cycle and the word at `pc` decodes to `i`. -/
def Runs (s : State) (i : Instr) : Prop := (∃ s', CycleFrom s s') ∧ decode s.fetchWord = .ok i

/-- The condition of a skip instruction on the state (41_control_flow.md R100 to R105); none for an instruction that is no
skip. -/
def skipCondition (i : Instr) (s : State) : Option Bool :=
  match i with
  | .seImm x nn => some (decide (s.reg x = nn))
  | .sneImm x nn => some (decide (s.reg x ≠ nn))
  | .seReg x y _ => some (decide (s.reg x = s.reg y))
  | .sneReg x y _ => some (decide (s.reg x ≠ s.reg y))
  | .skp x => some (s.keypad.getLsbD ((s.reg x).toNat % 16))
  | .sknp x => some (!s.keypad.getLsbD ((s.reg x).toNat % 16))
  | _ => none

end Sys2Proof.Machine
end

