-- ==== Sys2Proof/Certificates/Slice0/Obligations.lean ====
section
/-! DEFINITION. The statements for the provers. Every instruction has one that gives its encoding, its result, its frame
and that it completes: `Completes i s { view s with … }` says that `exec i s` answers a next state whose named parts are
as given and whose every other part (each register, each memory byte, each stack slot, each pixel, the driver's side) is
as in `s`. The `decode` clauses give the encodings of the rules' own **Encoding** lines; the opcode numbers in them are ones
the spec supplies from general knowledge (92_eei_decisions.md D1, log entry 5). -/

open Sys2Proof Sys2Proof.Machine

/-! ## Arithmetic and logic, spec/40_arith_logic.md -/

/-- R80, R82: the two moves into a register. -/
def Obligations.LoadImmediateAndRegisterCopy : Prop :=
  ∀ (s : State) (x y : Nibble) (nn : Byte),
    (decode (wordXNN 0x6 x nn) = .ok (.ldImm x nn) ∧
      Completes (.ldImm x nn) s { view s with
        regs := fun r => if r = x then nn else s.reg r
        pc := s.pc + 2 }) ∧
    (decode (wordXYN 0x8 x y 0x0) = .ok (.ldReg x y) ∧
      Completes (.ldReg x y) s { view s with
        regs := fun r => if r = x then s.reg y else s.reg r
        pc := s.pc + 2 })

/-- R81: the sum modulo 256, no flag. -/
def Obligations.AddImmediateKeepsTheFlag : Prop :=
  ∀ (s : State) (x : Nibble) (nn : Byte),
    decode (wordXNN 0x7 x nn) = .ok (.addImm x nn) ∧
    Completes (.addImm x nn) s { view s with
      regs := fun r => if r = x then s.reg x + nn else s.reg r
      pc := s.pc + 2 }

/-- R83, R84, R85: the bitwise operations write their destination and no flag. -/
def Obligations.BitwiseOperationsKeepTheFlag : Prop :=
  ∀ (s : State) (x y : Nibble),
    (decode (wordXYN 0x8 x y 0x1) = .ok (.orReg x y) ∧
      Completes (.orReg x y) s { view s with
        regs := fun r => if r = x then s.reg x ||| s.reg y else s.reg r
        pc := s.pc + 2 }) ∧
    (decode (wordXYN 0x8 x y 0x2) = .ok (.andReg x y) ∧
      Completes (.andReg x y) s { view s with
        regs := fun r => if r = x then s.reg x &&& s.reg y else s.reg r
        pc := s.pc + 2 }) ∧
    (decode (wordXYN 0x8 x y 0x3) = .ok (.xorReg x y) ∧
      Completes (.xorReg x y) s { view s with
        regs := fun r => if r = x then s.reg x ^^^ s.reg y else s.reg r
        pc := s.pc + 2 })

/-- R86: the sum modulo 256, then the carry to VF, which wins over the sum when `x = 15`. -/
def Obligations.AddRegistersSetsCarry : Prop :=
  ∀ (s : State) (x y : Nibble),
    decode (wordXYN 0x8 x y 0x4) = .ok (.addReg x y) ∧
    Completes (.addReg x y) s { view s with
      regs := fun r =>
        if r = 0xF then (if (s.reg x).toNat + (s.reg y).toNat > 255 then 1 else 0)
        else if r = x then s.reg x + s.reg y else s.reg r
      pc := s.pc + 2 }

/-- R87, R88: the difference modulo 256 either way round, then the strict comparison to VF. -/
def Obligations.SubtractionsSetStrictlyGreater : Prop :=
  ∀ (s : State) (x y : Nibble),
    (decode (wordXYN 0x8 x y 0x5) = .ok (.sub x y) ∧
      Completes (.sub x y) s { view s with
        regs := fun r =>
          if r = 0xF then (if (s.reg x).toNat > (s.reg y).toNat then 1 else 0)
          else if r = x then s.reg x - s.reg y else s.reg r
        pc := s.pc + 2 }) ∧
    (decode (wordXYN 0x8 x y 0x7) = .ok (.subn x y) ∧
      Completes (.subn x y) s { view s with
        regs := fun r =>
          if r = 0xF then (if (s.reg y).toNat > (s.reg x).toNat then 1 else 0)
          else if r = x then s.reg y - s.reg x else s.reg r
        pc := s.pc + 2 })

/-- R89, R90: shift by one of the register `SHIFT_SOURCE` names, then the bit shifted out to VF as 0 or 1. -/
def Obligations.ShiftsUseTheConfiguredSource : Prop :=
  ∀ (s : State) (x y : Nibble) (a : Byte),
    (s.env.config.shiftSource = .x ∧ a = s.reg x ∨ s.env.config.shiftSource = .y ∧ a = s.reg y) →
    (decode (wordXYN 0x8 x y 0x6) = .ok (.shr x y) ∧
      Completes (.shr x y) s { view s with
        regs := fun r => if r = 0xF then a &&& 1 else if r = x then a >>> 1 else s.reg r
        pc := s.pc + 2 }) ∧
    (decode (wordXYN 0x8 x y 0xE) = .ok (.shl x y) ∧
      Completes (.shl x y) s { view s with
        regs := fun r => if r = 0xF then a >>> 7 else if r = x then a <<< 1 else s.reg r
        pc := s.pc + 2 })

/-! ## Control flow, spec/41_control_flow.md -/

/-- R100, R101: the skips on an immediate. -/
def Obligations.ImmediateSkips : Prop :=
  ∀ (s : State) (x : Nibble) (nn : Byte),
    (decode (wordXNN 0x3 x nn) = .ok (.seImm x nn) ∧
      Completes (.seImm x nn) s { view s with pc := if s.reg x = nn then s.pc + 4 else s.pc + 2 }) ∧
    (decode (wordXNN 0x4 x nn) = .ok (.sneImm x nn) ∧
      Completes (.sneImm x nn) s { view s with pc := if s.reg x = nn then s.pc + 2 else s.pc + 4 })

/-- R102, R103: the skips on two registers, whatever the low nibble of the word holds; that it is ignored is the spec's own
decision (92_eei_decisions.md D3). -/
def Obligations.RegisterSkipsIgnoreTheLowNibble : Prop :=
  ∀ (s : State) (x y n : Nibble),
    (decode (wordXYN 0x5 x y n) = .ok (.seReg x y n) ∧
      Completes (.seReg x y n) s { view s with pc := if s.reg x = s.reg y then s.pc + 4 else s.pc + 2 }) ∧
    (decode (wordXYN 0x9 x y n) = .ok (.sneReg x y n) ∧
      Completes (.sneReg x y n) s { view s with pc := if s.reg x = s.reg y then s.pc + 2 else s.pc + 4 })

/-- R104, R105: the skips on the key whose number is the low nibble of `V[x]`, bit `k` standing for key `k`, both the spec's
own decisions (92_eei_decisions.md D12, D13). -/
def Obligations.KeySkipsTestOneBitOfTheKeypad : Prop :=
  ∀ (s : State) (x : Nibble),
    (decode (wordXNN 0xE x 0x9E) = .ok (.skp x) ∧
      Completes (.skp x) s { view s with
        pc := if s.keypad.getLsbD ((s.reg x).toNat % 16) then s.pc + 4 else s.pc + 2 }) ∧
    (decode (wordXNN 0xE x 0xA1) = .ok (.sknp x) ∧
      Completes (.sknp x) s { view s with
        pc := if s.keypad.getLsbD ((s.reg x).toNat % 16) then s.pc + 2 else s.pc + 4 })

/-- R106, R110: the absolute jump and its alias set `pc` and nothing else. -/
def Obligations.JumpsSetTheProgramCounter : Prop :=
  ∀ (s : State) (nnn : Addr),
    (decode (wordNNN 0x1 nnn) = .ok (.jp nnn) ∧
      Completes (.jp nnn) s { view s with pc := BitVec.ofNat 16 nnn.toNat }) ∧
    ((nnn ≠ 0x0E0 → nnn ≠ 0x0EE → decode (wordNNN 0x0 nnn) = .ok (.sys nnn)) ∧
      Completes (.sys nnn) s { view s with pc := BitVec.ofNat 16 nnn.toNat })

/-- R107: the offset jump sets `pc` to `nnn + V0` and nothing else. The sum is not reduced to 12 bits, which is the spec's
own decision (92_eei_decisions.md D8). -/
def Obligations.OffsetJumpKeepsTheWholeSum : Prop :=
  ∀ (s : State) (nnn : Addr),
    decode (wordNNN 0xB nnn) = .ok (.jpV0 nnn) ∧
    Completes (.jpV0 nnn) s { view s with pc := BitVec.ofNat 16 (nnn.toNat + (s.reg 0).toNat) }

/-- R108: CALL pushes the address after itself (the spec's own decision D5) and jumps; on a full stack it raises
StackOverflow with its word and address (the spec's own D15). -/
def Obligations.CallPushesTheReturnAddress : Prop :=
  ∀ (s : State) (nnn : Addr),
    decode (wordNNN 0x2 nnn) = .ok (.call nnn) ∧
    (s.sp.toNat < 16 → Completes (.call nnn) s { view s with
      slot := fun k => if k = s.sp.toNat then some (s.pc + 2) else s.slot k
      sp := s.sp + 1
      pc := BitVec.ofNat 16 nnn.toNat }) ∧
    (s.sp.toNat ≥ 16 → exec (.call nnn) s = .fault (.stackOverflow (wordNNN 0x2 nnn) s.pc))

/-- R109: RET pops the newest slot into `pc` and does not clear it; on an empty stack it raises StackUnderflow. `sp` at
most 16 is the machine's invariant (`ResetMeetsTheInvariant`, `EveryStepKeepsTheInvariant`). -/
def Obligations.ReturnPopsTheNewestSlot : Prop :=
  decode 0x00EE = .ok .ret ∧
  ∀ s : State, s.sp.toNat ≤ 16 →
    (∀ target, s.sp ≠ 0 → s.slot (s.sp.toNat - 1) = some target →
      Completes .ret s { view s with sp := s.sp - 1, pc := target }) ∧
    (s.sp ≠ 0 → ∃ target, s.slot (s.sp.toNat - 1) = some target) ∧
    (s.sp = 0 → exec .ret s = .fault (.stackUnderflow 0x00EE s.pc))

/-! ## Index register and memory, spec/42_memory_index.md -/

/-- R120: the address goes to `I`, zero-extended. -/
def Obligations.SetIndex : Prop :=
  ∀ (s : State) (nnn : Addr),
    decode (wordNNN 0xA nnn) = .ok (.ldI nnn) ∧
    Completes (.ldI nnn) s { view s with I := BitVec.ofNat 16 nnn.toNat, pc := s.pc + 2 }

/-- R121, R122: the sum modulo 4096 with no flag, and the glyph address of the low nibble. That no flag is set and that the
high nibble is ignored are the spec's own decisions (92_eei_decisions.md D26, D27). -/
def Obligations.IndexRegisterArithmetic : Prop :=
  ∀ (s : State) (x : Nibble),
    (decode (wordXNN 0xF x 0x1E) = .ok (.addI x) ∧
      Completes (.addI x) s { view s with
        I := BitVec.ofNat 16 ((s.I.toNat + (s.reg x).toNat) % 4096)
        pc := s.pc + 2 }) ∧
    (decode (wordXNN 0xF x 0x29) = .ok (.ldF x) ∧
      Completes (.ldF x) s { view s with
        I := BitVec.ofNat 16 (0x050 + 5 * ((s.reg x).toNat % 16))
        pc := s.pc + 2 })

/-- R123: the three decimal digits to `I`, `I + 1`, `I + 2`, each address modulo 4096, and no other byte. `effAddr` is the
address the meaning stores to. -/
def Obligations.BcdStoresThreeDigits : Prop :=
  ∀ (s : State) (x : Nibble),
    decode (wordXNN 0xF x 0x33) = .ok (.ldB x) ∧
    (∀ k, s.effAddr k = (s.I.toNat + k) % 4096) ∧
    Completes (.ldB x) s { view s with
      byte := fun a =>
        if a % 4096 = s.effAddr 0 then BitVec.ofNat 8 ((s.reg x).toNat / 100)
        else if a % 4096 = s.effAddr 1 then BitVec.ofNat 8 ((s.reg x).toNat / 10 % 10)
        else if a % 4096 = s.effAddr 2 then BitVec.ofNat 8 ((s.reg x).toNat % 10)
        else s.memRead a
      pc := s.pc + 2 }

/-- R124: `V0..Vx` to `I..I + x`, each address modulo 4096, and no other byte; `I` is kept. -/
def Obligations.BlockStoreWritesExactlyItsBytes : Prop :=
  ∀ (s : State) (x : Nibble),
    decode (wordXNN 0xF x 0x55) = .ok (.storeRegs x) ∧
    ∃ t, exec (.storeRegs x) s = .next t ∧
      (∀ k : Nibble, k.toNat ≤ x.toNat → t.memRead ((s.I.toNat + k.toNat) % 4096) = s.reg k) ∧
      (∀ a, (∀ k ≤ x.toNat, a % 4096 ≠ (s.I.toNat + k) % 4096) → t.memRead a = s.memRead a) ∧
      view t = { view s with byte := t.memRead, pc := s.pc + 2 }

/-- R125: `V0..Vx` from `I..I + x`, each address modulo 4096, and no other register; `I` and memory are kept. -/
def Obligations.BlockLoadWritesExactlyItsRegisters : Prop :=
  ∀ (s : State) (x : Nibble),
    decode (wordXNN 0xF x 0x65) = .ok (.loadRegs x) ∧
    Completes (.loadRegs x) s { view s with
      regs := fun r => if r.toNat ≤ x.toNat then s.memRead (s.I.toNat + r.toNat) else s.reg r
      pc := s.pc + 2 }

/-! ## Timers and keypad, spec/43_timer_keypad.md -/

/-- R135, R136, R137: the timer moves. -/
def Obligations.TimerMoves : Prop :=
  ∀ (s : State) (x : Nibble),
    (decode (wordXNN 0xF x 0x07) = .ok (.ldVxDt x) ∧
      Completes (.ldVxDt x) s { view s with
        regs := fun r => if r = x then s.dt else s.reg r
        pc := s.pc + 2 }) ∧
    (decode (wordXNN 0xF x 0x15) = .ok (.ldDtVx x) ∧
      Completes (.ldDtVx x) s { view s with dt := s.reg x, pc := s.pc + 2 }) ∧
    (decode (wordXNN 0xF x 0x18) = .ok (.ldStVx x) ∧
      Completes (.ldStVx x) s { view s with st := s.reg x, pc := s.pc + 2 })

/-- R138: with no key down nothing changes, `pc` included; with a key down the lowest one goes to `V[x]`, the
spec's own decision (92_eei_decisions.md D14). -/
def Obligations.KeyWaitTakesTheLowestKey : Prop :=
  ∀ (s : State) (x : Nibble),
    decode (wordXNN 0xF x 0x0A) = .ok (.ldVxK x) ∧
    (s.keypad = 0 → Completes (.ldVxK x) s (view s)) ∧
    (s.keypad ≠ 0 → ∃ k < 16, s.keypad.getLsbD k = true ∧ (∀ j < k, s.keypad.getLsbD j = false) ∧
      Completes (.ldVxK x) s { view s with
        regs := fun r => if r = x then BitVec.ofNat 8 k else s.reg r
        pc := s.pc + 2 })

/-! ## The screen, spec/44_draw.md, and the two unsourced instructions, 45_unsourced_cls_rnd.md -/

/-- R145 with R146 and R147: each of the 8 by `n` sprite pixels is XORed onto the screen at its coordinates modulo the
grid, every other pixel is kept, VF says whether a set pixel was hit, and nothing else changes. Sprite pixel (column `c`,
row `r`) is bit `7 - c` of the byte at `I + r`. That the origin is read before VF is written, and that height 0 still writes
VF, are the spec's own decisions (92_eei_decisions.md D10, D11). -/
def Obligations.DrawXorsTheSpriteAndReportsCollision : Prop :=
  ∀ (s : State) (x y n : Nibble),
    decode (wordXYN 0xD x y n) = .ok (.drw x y n) ∧
    ∃ t, exec (.drw x y n) s = .next t ∧
      (∀ r < n.toNat, ∀ c < 8,
        t.pixel ((s.reg x).toNat + c) ((s.reg y).toNat + r) =
          (s.pixel ((s.reg x).toNat + c) ((s.reg y).toNat + r) ^^
            (s.memRead (s.I.toNat + r)).getLsbD (7 - c))) ∧
      (∀ px py, (∀ r < n.toNat, ∀ c < 8,
          ¬(px % 64 = ((s.reg x).toNat + c) % 64 ∧ py % 32 = ((s.reg y).toNat + r) % 32)) →
        t.pixel px py = s.pixel px py) ∧
      (t.reg 0xF = 0 ∨ t.reg 0xF = 1) ∧
      (t.reg 0xF = 1 ↔ ∃ r < n.toNat, ∃ c < 8, (s.memRead (s.I.toNat + r)).getLsbD (7 - c) = true ∧
        s.pixel ((s.reg x).toNat + c) ((s.reg y).toNat + r) = true) ∧
      view t = { view s with
        regs := fun r => if r = 0xF then t.reg 0xF else s.reg r
        pixel := t.pixel
        pc := s.pc + 2 }

/-- R148: (a) drawing twice at one origin (which a first draw moves only where it is VF and changes) restores the screen,
and the second draw collides exactly when a 1 bit of the sprite fell on a pixel unset before the first; (b) at origin
(63, 31) an 8 by 2 sprite touches columns 63, 0..6 and rows 31, 0 only (that it does reach them, by wrapping round both
edges, is `DrawXorsTheSpriteAndReportsCollision`). -/
def Obligations.DrawTwiceRestoresTheScreen : Prop :=
  (∀ (s t u : State) (x y n : Nibble), exec (.drw x y n) s = .next t → exec (.drw x y n) t = .next u →
    t.reg x = s.reg x → t.reg y = s.reg y →
    u.pixel = s.pixel ∧
    (u.reg 0xF = 1 ↔ ∃ r < n.toNat, ∃ c < 8, (s.memRead (s.I.toNat + r)).getLsbD (7 - c) = true ∧
      s.pixel ((s.reg x).toNat + c) ((s.reg y).toNat + r) = false)) ∧
  (∀ (s t : State) (x y : Nibble), s.reg x = 63 → s.reg y = 31 → exec (.drw x y 2) s = .next t →
    ∀ px < 64, ∀ py < 32, t.pixel px py ≠ s.pixel px py → (px = 63 ∨ px ≤ 6) ∧ (py = 31 ∨ py = 0))

/-- R155: CLS unsets every pixel; with `ADMIT_CLS_RND` false it is an unimplemented opcode. Both are the spec's own, from
general knowledge (92_eei_decisions.md D2, log entry 4). -/
def Obligations.ClearScreen : Prop :=
  decode 0x00E0 = .ok .cls ∧
  ∀ s : State,
    (s.env.config.admitClsRnd = true →
      Completes .cls s { view s with pixel := fun _ _ => false, pc := s.pc + 2 }) ∧
    (s.env.config.admitClsRnd = false → exec .cls s = .fault (.unimplementedOpcode 0x00E0 s.pc))

/-- R156: RND writes the byte drawn ANDed with the mask; with `ADMIT_CLS_RND` false it is an unimplemented opcode. The byte
drawn is `Config.draw8`, a free value, at the model's own index `draws`: the statement holds whatever it is. The instruction
is the spec's own, from general knowledge (92_eei_decisions.md D2, log entries 3 and 4). -/
def Obligations.RandomByteUnderMask : Prop :=
  ∀ (s : State) (x : Nibble) (nn : Byte),
    decode (wordXNN 0xC x nn) = .ok (.rnd x nn) ∧
    (s.env.config.admitClsRnd = true → Completes (.rnd x nn) s { view s with
      regs := fun r => if r = x then Config.draw8 s.env.draws &&& nn else s.reg r
      env := { s.env with draws := s.env.draws + 1 }
      pc := s.pc + 2 }) ∧
    (s.env.config.admitClsRnd = false →
      exec (.rnd x nn) s = .fault (.unimplementedOpcode (wordXNN 0xC x nn) s.pc))

/-! ## Encoding, spec/30_encoding.md -/

/-- For every instruction with every operand value the encoding admits, decoding its word gives it back: no bit of an
encoding is dropped. -/
def Obligations.DecodeOfEncodeIsTheInstruction : Prop :=
  ∀ i : Instr, i.wf = true → decode (encode i) = .ok i

/-- Every word that decodes is the word of the instruction it decodes to, which is well-formed: no two words are one
instruction, and the map has no overlap. -/
def Obligations.EncodeOfDecodeIsTheWord : Prop :=
  ∀ (w : Word) (i : Instr), decode w = .ok i → encode i = w ∧ i.wf = true

/-- R61 and R57 to R59 with `ADMIT_CLS_RND` as set: a cycle's dispatch raises UnimplementedOpcode with the word and its
address exactly for the illegal words. -/
def Obligations.IllegalWordsAreExactlyThese : Prop :=
  ∀ s : State,
    dispatchWord s = .fault (.unimplementedOpcode s.fetchWord s.pc) ↔
      (classOf s.fetchWord = 0x8 ∧ nOf s.fetchWord ∈ ([0x8, 0x9, 0xA, 0xB, 0xC, 0xD, 0xF] : List Nibble)) ∨
      (classOf s.fetchWord = 0xE ∧ nnOf s.fetchWord ∉ ([0x9E, 0xA1] : List Byte)) ∨
      (classOf s.fetchWord = 0xF ∧
        nnOf s.fetchWord ∉ ([0x07, 0x0A, 0x15, 0x18, 0x1E, 0x29, 0x33, 0x55, 0x65] : List Byte)) ∨
      (s.env.config.admitClsRnd = false ∧ (s.fetchWord = 0x00E0 ∨ classOf s.fetchWord = 0xC))

/-- A few words of the table of R55, written out bit by bit. -/
def Obligations.WordsOfTheTableDecode : Prop :=
  decode 0b0001001000110100 = .ok (.jp 0x234) ∧
  decode 0b0110101000101111 = .ok (.ldImm 0xA 0x2F) ∧
  decode 0b1000000100100110 = .ok (.shr 1 2) ∧
  decode 0b1101000100100101 = .ok (.drw 1 2 5) ∧
  decode 0b1110001110100001 = .ok (.sknp 3) ∧
  decode 0b1111010000110011 = .ok (.ldB 4) ∧
  decode 0b1100001100001111 = .ok (.rnd 3 0x0F)

/-- R33 with R31: the instruction word is big-endian from the two bytes at `pc` and `pc + 1`, each address modulo 4096. -/
def Obligations.FetchIsBigEndianAndWraps : Prop :=
  ∀ s : State,
    s.fetchWord.toNat =
      (s.mem.read (s.pc.toNat % 4096)).toNat * 256 + (s.mem.read ((s.pc.toNat + 1) % 4096)).toNat

/-! ## The cycle, its errors and the driver -/

/-- The step runs the decoded instruction (R62): where the driver asks for a cycle, run from `s'`, and the word at `pc`
decodes to a well-formed `i`, the step is `exec i s'` with the status recorded; after an error the driver halts on the
fault or skips (R165). Recording the status in the state is the model's choice (log entry 7). -/
def Obligations.StepRunsTheDecodedInstruction : Prop :=
  ∀ (s s' : State) (i : Instr), CycleFrom s s' → s'.fetchable → i.wf = true → decode s'.fetchWord = .ok i →
    (∀ t, exec i s' = .next t → step s = .next (t.setStatus .ok)) ∧
    (∀ f, exec i s' = .fault f →
      (s'.env.config.driverOnError = .halt → step s = .fault f) ∧
      (s'.env.config.driverOnError = .skip → step s = .next ((s'.setPc (s'.pc + 2)).setStatus (.error f)))) ∧
    (∀ r, exec i s' = .refused r → step s = .refused r)

/-- R161, R164, R165: a cycle at an illegal word ends with UnimplementedOpcode, its word and its address: a fault of the
run, or, where the driver skips, a state unchanged but for `pc` and the driver's record of the status. -/
def Obligations.IllegalWordIsReported : Prop :=
  ∀ (s s' : State) (e : Reject), CycleFrom s s' → s'.fetchable → decode s'.fetchWord = .error e →
    (s'.env.config.driverOnError = .halt → step s = .fault (.unimplementedOpcode s'.fetchWord s'.pc)) ∧
    (s'.env.config.driverOnError = .skip → ∃ t, step s = .next t ∧
      view t = { view s' with
        pc := s'.pc + 2
        env := { s'.env with status := some (.error (.unimplementedOpcode s'.fetchWord s'.pc)) } })

/-- R108, R109, R60: exactly when an instruction raises an error condition, and which: CALL on a full stack, RET on an empty
one, CLS and RND where they are not admitted. That the meanings of CLS and RND raise the Dispatcher's error is the model's
choice (log entry 4, over the spec's D2). So is CALL's fault with `sp` above 16, a state the machine does not have (log entry
11): R160 and R162 speak of `sp = 16`, and the operation of R108 is written with `sp >= 16`. -/
def Obligations.ErrorsAreRaisedExactlyThere : Prop :=
  ∀ (i : Instr) (s : State) (f : Fault), exec i s = .fault f ↔
    (∃ nnn, i = .call nnn ∧ 16 ≤ s.sp.toNat ∧ f = .stackOverflow (encode i) s.pc) ∨
    (i = .ret ∧ s.sp = 0 ∧ f = .stackUnderflow (encode i) s.pc) ∨
    ((i = .cls ∨ ∃ x nn, i = .rnd x nn) ∧ s.env.config.admitClsRnd = false ∧
      f = .unimplementedOpcode (encode i) s.pc)

/-- R160: the information an error records is the fetched word and its address, whatever raised it. -/
def Obligations.ErrorInformationIsTheFetchedWord : Prop :=
  ∀ (s : State) (f : Fault), dispatchWord s = .fault f →
    f = .unimplementedOpcode s.fetchWord s.pc ∨ f = .stackOverflow s.fetchWord s.pc ∨
      f = .stackUnderflow s.fetchWord s.pc

/-- R22: with `STRICT_EVEN_PC` a cycle at an odd `pc` is refused, and in a state that meets the invariant a step is
refused for no other reason. -/
def Obligations.OnlyAStrictOddCycleIsRefused : Prop :=
  ∀ (s : State) (r : Refusal), s.Inv →
    (step s = .refused r ↔
      (∃ s', CycleFrom s s') ∧ s.env.config.strictEvenPc = true ∧ s.pc.toNat % 2 = 1 ∧ r = .oddPc)

/-- R165, R167: where the driver skips errors, a state that meets the invariant and is not refused for an odd `pc` always
has a next state: nothing but the spec's errors stops the machine. -/
def Obligations.SkippingDriverAlwaysGoesOn : Prop :=
  ∀ s : State, s.Inv → s.fetchable → s.env.config.driverOnError = .skip → ∃ t, step s = .next t

/-! ## The invariant -/

/-- The state after reset meets the invariant. -/
def Obligations.ResetMeetsTheInvariant : Prop := State.reset.Inv

/-- The invariant (memory in canonical form, `I` in 12 bits, `sp` in 0..16) is kept by every step: by every instruction,
every event and a skipped error. -/
def Obligations.EveryStepKeepsTheInvariant : Prop :=
  ∀ s t : State, s.Inv → step s = .next t → t.Inv

/-- Along every run from a state that meets the invariant the stack depth never exceeds 16 and `I` stays in 12 bits
(R15, R18). -/
def Obligations.StackDepthNeverExceedsSixteen : Prop :=
  ∀ (k : Nat) (s t : State), s.Inv → Host.Core.run Sys2Proof.core k s = .next t →
    t.sp.toNat ≤ 16 ∧ t.I.toNat < 4096

/-! ## Whole-machine rules: who writes what -/

/-- R10: memory changes only where the step runs `LD B,Vx` or `LD [I],Vx`; `I` only under its three writers; a stack slot
only under CALL and `sp` only under CALL and RET. -/
def Obligations.MemoryIndexAndStackHaveOnlyTheirWriters : Prop :=
  ∀ s t : State, step s = .next t →
    (t.memRead ≠ s.memRead → ∃ x, Runs s (.ldB x) ∨ Runs s (.storeRegs x)) ∧
    (t.I ≠ s.I → (∃ nnn, Runs s (.ldI nnn)) ∨ ∃ x, Runs s (.addI x) ∨ Runs s (.ldF x)) ∧
    (t.slot ≠ s.slot → ∃ nnn, Runs s (.call nnn)) ∧
    (t.sp ≠ s.sp → (∃ nnn, Runs s (.call nnn)) ∨ Runs s .ret)

/-- R17, R19, R175: the keypad changes only by a keypad update, to the mask set; the screen only under DRW and CLS. -/
def Obligations.KeypadAndScreenHaveOnlyTheirWriters : Prop :=
  ∀ s t : State, step s = .next t →
    (t.keypad ≠ s.keypad → ∃ rest, s.env.schedule = .keys t.keypad :: rest) ∧
    (t.pixel ≠ s.pixel → (∃ x y n, Runs s (.drw x y n)) ∨ Runs s .cls)

/-- R12: a general register other than VF changes only as the destination of an instruction R12 lists as writing it, or in
the block `LD Vx,[I]` loads. -/
def Obligations.RegistersHaveOnlyTheirWriters : Prop :=
  ∀ (s t : State) (r : Nibble), step s = .next t → t.reg r ≠ s.reg r → r ≠ 0xF →
    ∃ i, Runs s i ∧
      ((∃ nn, i = .ldImm r nn) ∨ (∃ nn, i = .addImm r nn) ∨ (∃ nn, i = .rnd r nn) ∨
        (∃ y, i = .ldReg r y ∨ i = .orReg r y ∨ i = .andReg r y ∨ i = .xorReg r y ∨ i = .addReg r y ∨ i = .sub r y ∨
          i = .subn r y ∨ i = .shr r y ∨ i = .shl r y) ∨
        i = .ldVxDt r ∨ i = .ldVxK r ∨ ∃ x, i = .loadRegs x ∧ r.toNat ≤ x.toNat)

/-- R13: VF changes only as a flag of the six flag writers, or as the ordinary destination `x = 15`. -/
def Obligations.FlagRegisterHasOnlyItsWriters : Prop :=
  ∀ s t : State, step s = .next t → t.reg 0xF ≠ s.reg 0xF →
    ∃ i, Runs s i ∧
      ((∃ x y, i = .addReg x y ∨ i = .sub x y ∨ i = .subn x y ∨ i = .shr x y ∨ i = .shl x y ∨ ∃ n, i = .drw x y n) ∨
        (∃ nn, i = .ldImm 0xF nn ∨ i = .addImm 0xF nn ∨ i = .rnd 0xF nn) ∨
        (∃ y, i = .ldReg 0xF y ∨ i = .orReg 0xF y ∨ i = .andReg 0xF y ∨ i = .xorReg 0xF y) ∨
        i = .ldVxDt 0xF ∨ i = .ldVxK 0xF ∨ i = .loadRegs 0xF)

/-- R21: the net effect of every instruction on `pc`. -/
def Obligations.NetProgramCounter : Prop :=
  ∀ (i : Instr) (s t : State), exec i s = .next t →
    (∀ nnn, i = .jp nnn ∨ i = .sys nnn ∨ i = .call nnn → t.pc.toNat = nnn.toNat) ∧
    (∀ nnn, i = .jpV0 nnn → t.pc.toNat = nnn.toNat + (s.reg 0).toNat) ∧
    (i = .ret → s.slot (s.sp.toNat - 1) = some t.pc) ∧
    (∀ c, skipCondition i s = some c → t.pc = if c then s.pc + 4 else s.pc + 2) ∧
    (∀ x, i = .ldVxK x → t.pc = if s.keypad = 0 then s.pc else s.pc + 2) ∧
    ((∀ nnn, i ≠ .jp nnn ∧ i ≠ .sys nnn ∧ i ≠ .call nnn ∧ i ≠ .jpV0 nnn) → i ≠ .ret → skipCondition i s = none →
      (∀ x, i ≠ .ldVxK x) → t.pc = s.pc + 2)

/-- The open parameters are configuration: no step changes them. They stand in the state by the model's choice (log entry
1). -/
def Obligations.NoStepChangesTheParameters : Prop :=
  ∀ s t : State, step s = .next t → t.env.config = s.env.config

/-! ## Timers -/

/-- R172: a tick decrements both timers by 1, floor 0, and changes nothing else; it is taken off the schedule, which is the
model's own (log entry 2). -/
def Obligations.TickDecrementsBothTimers : Prop :=
  ∀ (s : State) (rest : List Event), s.env.schedule = .tick :: rest →
    ∃ t, step s = .next t ∧
      t.dt.toNat = s.dt.toNat - 1 ∧ t.st.toNat = s.st.toNat - 1 ∧
      view t = { view s with dt := t.dt, st := t.st, env := { s.env with schedule := rest } }

/-- After any number of ticks in a row each timer has fallen by that number, floored at 0 (R172, R173). -/
def Obligations.TicksFloorAtZero : Prop :=
  ∀ (k : Nat) (s : State) (rest : List Event), s.env.schedule = List.replicate k .tick ++ rest →
    ∃ t, Host.Core.run Sys2Proof.core k s = .next t ∧
      t.dt.toNat = s.dt.toNat - k ∧ t.st.toNat = s.st.toNat - k ∧
      view t = { view s with dt := t.dt, st := t.st, env := { s.env with schedule := rest } }

/-- R173: a timer never increases but by `LD DT,Vx` or `LD ST,Vx`. -/
def Obligations.TimersRiseOnlyWhenSet : Prop :=
  ∀ s t : State, step s = .next t →
    (s.dt.toNat < t.dt.toNat → ∃ x, Runs s (.ldDtVx x)) ∧
    (s.st.toNat < t.st.toNat → ∃ x, Runs s (.ldStVx x))

/-- R175: a keypad update sets the keypad register and changes nothing else; it is taken off the schedule (log entry 2). -/
def Obligations.KeypadUpdateSetsTheMask : Prop :=
  ∀ (s : State) (mask : Word) (rest : List Event), s.env.schedule = .keys mask :: rest →
    ∃ t, step s = .next t ∧ view t = { view s with keypad := mask, env := { s.env with schedule := rest } }

/-- R16: no instruction reads the sound timer. Two runs of one instruction from states that differ in `st` alone end
alike, and in states that differ in `st` alone. -/
def Obligations.SoundTimerIsNeverRead : Prop :=
  ∀ (i : Instr) (s : State) (b : Byte),
    (∀ t, exec i s = .next t → ∃ t', exec i { s with st := b } = .next t' ∧
      view t' = { view t with st := t'.st } ∧ (t'.st = b ∨ t'.st = t.st)) ∧
    (∀ f, exec i s = .fault f → exec i { s with st := b } = .fault f)

/-! ## The stack -/

/-- R18: slots at and above `sp` cannot be read. Two runs of one instruction from states that differ in one such slot end
alike: every part but the slots is equal, and so is every slot in use. -/
def Obligations.DeadStackSlotsAreNeverRead : Prop :=
  ∀ (i : Instr) (s : State) (k : Nat) (h : k < 16) (w : Word), s.sp.toNat ≤ k →
    (∀ t, exec i s = .next t → ∃ t', exec i { s with stack := s.stack.set k w h } = .next t' ∧
      view t' = { view t with slot := t'.slot } ∧ ∀ j < t.sp.toNat, t'.slot j = t.slot j) ∧
    (∀ f, exec i s = .fault f → exec i { s with stack := s.stack.set k w h } = .fault f)

/-- R108, R109: from a stack that is not full, CALL then RET comes back to the instruction after the CALL, with `sp`, every
slot in use and everything else as before. -/
def Obligations.CallThenReturnComesBack : Prop :=
  ∀ (s : State) (nnn : Addr), s.sp.toNat < 16 →
    ∃ t u, exec (.call nnn) s = .next t ∧ exec .ret t = .next u ∧
      view u = { view s with pc := s.pc + 2, slot := u.slot } ∧ ∀ j < s.sp.toNat, u.slot j = s.slot j

/-! ## Memory and code, reset, load, end of a run -/

/-- R43: the bytes `LD [I],Vx` stores are what the next cycle fetches, where `pc` points at two of them. -/
def Obligations.FetchSeesTheLatestStore : Prop :=
  ∀ (s t : State) (x k : Nibble), exec (.storeRegs x) s = .next t → k.toNat < x.toNat →
    t.pc.toNat % 4096 = (s.I.toNat + k.toNat) % 4096 →
    t.fetchWord.toNat = (s.reg k).toNat * 256 + (s.reg (k + 1)).toNat

/-- The glyphs as 10_state.md R25 tables them. -/
def fontGlyphs : List (List Byte) :=
  [[0xF0, 0x90, 0x90, 0x90, 0xF0], [0x20, 0x60, 0x20, 0x20, 0x70], [0xF0, 0x10, 0xF0, 0x80, 0xF0],
   [0xF0, 0x10, 0xF0, 0x10, 0xF0], [0x90, 0x90, 0xF0, 0x10, 0x10], [0xF0, 0x80, 0xF0, 0x10, 0xF0],
   [0xF0, 0x80, 0xF0, 0x90, 0xF0], [0xF0, 0x10, 0x20, 0x40, 0x40]] ++
  [[0xF0, 0x90, 0xF0, 0x90, 0xF0], [0xF0, 0x90, 0xF0, 0x10, 0xF0], [0xF0, 0x90, 0xF0, 0x90, 0x90],
   [0xE0, 0x90, 0xE0, 0x90, 0xE0], [0xF0, 0x80, 0x80, 0x80, 0xF0], [0xE0, 0x90, 0x90, 0x90, 0xE0],
   [0xF0, 0x80, 0xF0, 0x80, 0xF0], [0xF0, 0x80, 0xF0, 0x80, 0x80]]

/-- R24: after reset every register, timer, stack slot, pixel and memory byte is 0 but `pc` and the font. -/
def Obligations.ResetZeroesAllButFontAndPc : Prop :=
  (∀ r, State.reset.reg r = 0) ∧ State.reset.I = 0 ∧ State.reset.sp = 0 ∧
  (∀ k < 16, State.reset.slot k = some 0) ∧ State.reset.dt = 0 ∧ State.reset.st = 0 ∧ State.reset.keypad = 0 ∧
  (∀ x y, State.reset.pixel x y = false) ∧
  (∀ a < 4096, ¬(0x050 ≤ a ∧ a ≤ 0x09F) → State.reset.memRead a = 0)

/-- R25, R27: after reset row `r` of glyph `g` is at `0x050 + 5*g + r` and `pc` is 0x0200. The byte values are the spec's
own, from general knowledge (92_eei_decisions.md D18, log entry 6), and so is the entry point (D6). -/
def Obligations.ResetHoldsTheFontAndTheEntryPoint : Prop :=
  (∀ g < 16, ∀ r < 5,
    some (State.reset.memRead (0x050 + 5 * g + r)) = (fontGlyphs[g]?.bind fun rows => rows[r]?)) ∧
  State.reset.pc = 0x0200

/-- R193: the ROM load puts the image at 0x200 after reset and changes nothing else; an image of more than 3584 bytes is
refused. -/
def Obligations.RomLoadPlacesTheImage : Prop :=
  ∀ rom : List Byte,
    (rom.length ≤ 3584 → ∃ t, boot rom = .next t ∧
      (∀ j (h : j < rom.length), t.memRead (0x200 + j) = rom[j]) ∧
      (∀ a < 4096, a < 0x200 ∨ 0x200 + rom.length ≤ a → t.memRead a = State.reset.memRead a) ∧
      view t = { view State.reset with byte := t.memRead }) ∧
    (3584 < rom.length → boot rom = .refused .romTooLong)

/-- A word placed where the next cycle fetches is the word fetched, no byte but its two changes, and the very next step is
the cycle that runs it. `withFetchWord` is the model's own (log entry 12). -/
def Obligations.PlacedWordIsRunNext : Prop :=
  ∀ (s : State) (w : Nat), w < 65536 →
    (s.withFetchWord 16 w).fetchWord = BitVec.ofNat 16 w ∧
    (∀ a, a % 4096 ≠ s.pc.toNat % 4096 → a % 4096 ≠ (s.pc.toNat + 1) % 4096 →
      (s.withFetchWord 16 w).memRead a = s.memRead a) ∧
    step (s.withFetchWord 16 w) = cycle { s with mem := (s.withFetchWord 16 w).mem }

/-- R198: a parked state steps only to itself. However many cycles the driver asks for, every part is as in the parked
state but the driver's record of the status. -/
def Obligations.ParkedStateStepsToItself : Prop :=
  ∀ (k : Nat) (s : State), s.parked → s.fetchable → s.env.schedule = [] →
    ∃ t, Host.Core.run Sys2Proof.core k s = .next t ∧ view t = { view s with env := t.env } ∧
      t.env = { s.env with status := t.env.status }

/-- R197 with R138: while no key is down the key wait runs again every cycle. However many cycles the driver asks for, every
part is as it was but the driver's record of the status (log entry 7). -/
def Obligations.KeyWaitPollsWhileNoKeyIsDown : Prop :=
  ∀ (k : Nat) (s : State) (x : Nibble), decode s.fetchWord = .ok (.ldVxK x) → s.keypad = 0 → s.fetchable →
    s.env.schedule = [] →
    ∃ t, Host.Core.run Sys2Proof.core k s = .next t ∧ view t = { view s with env := t.env } ∧
      t.env = { s.env with status := t.env.status }
end

