-- ==== Sys2Proof/Laws/Decode.lean ====
section
/-! SUPPORT. The Decoder's fields of the words the encoder lays out, and a word from its fields: what the round trips
rest on. -/

namespace Sys2Proof

/-! ## Fields of an encoded word -/

@[simp] theorem classOf_wordNNN (c : Nibble) (nnn : Addr) : classOf (wordNNN c nnn) = c := by
  ext i hi; simp [classOf, wordNNN]; grind

@[simp] theorem nnnOf_wordNNN (c : Nibble) (nnn : Addr) : nnnOf (wordNNN c nnn) = nnn := by
  ext i hi; simp [nnnOf, wordNNN]; grind

@[simp] theorem classOf_wordXNN (c x : Nibble) (nn : Byte) : classOf (wordXNN c x nn) = c := by
  ext i hi; simp [classOf, wordXNN]; grind

@[simp] theorem xOf_wordXNN (c x : Nibble) (nn : Byte) : xOf (wordXNN c x nn) = x := by
  ext i hi; simp [xOf, wordXNN]; grind

@[simp] theorem nnOf_wordXNN (c x : Nibble) (nn : Byte) : nnOf (wordXNN c x nn) = nn := by
  ext i hi; simp [nnOf, wordXNN]; grind

@[simp] theorem classOf_wordXYN (c x y n : Nibble) : classOf (wordXYN c x y n) = c := by
  ext i hi; simp [classOf, wordXYN]; grind

@[simp] theorem xOf_wordXYN (c x y n : Nibble) : xOf (wordXYN c x y n) = x := by
  ext i hi; simp [xOf, wordXYN]; grind

@[simp] theorem yOf_wordXYN (c x y n : Nibble) : yOf (wordXYN c x y n) = y := by
  ext i hi; simp [yOf, wordXYN]; grind

@[simp] theorem nOf_wordXYN (c x y n : Nibble) : nOf (wordXYN c x y n) = n := by
  ext i hi; simp [nOf, wordXYN]; grind

/-! ## A word from its fields -/

theorem wordNNN_fields (w : Word) : wordNNN (classOf w) (nnnOf w) = w := by
  ext i hi; simp [wordNNN, classOf, nnnOf]; grind

theorem wordXNN_fields (w : Word) : wordXNN (classOf w) (xOf w) (nnOf w) = w := by
  ext i hi; simp [wordXNN, classOf, xOf, nnOf]; grind

theorem wordXYN_fields (w : Word) : wordXYN (classOf w) (xOf w) (yOf w) (nOf w) = w := by
  ext i hi; simp [wordXYN, classOf, xOf, yOf, nOf]; grind

/-- The two bytes of a word put together again. -/
@[simp] theorem wordOfBytes_split (w : Word) : wordOfBytes (w.extractLsb' 8 8) (w.extractLsb' 0 8) = w := by
  ext i hi; simp [wordOfBytes]; grind

end Sys2Proof
end

