-- ==== Sys2Proof/Laws/Memory.lean ====
section
/-! SUPPORT. The laws of memory: read after write, and every write keeps the canonical form. -/

namespace Sys2Proof.Machine

@[simp] theorem Memory.read_nil (a : Nat) : Memory.read [] a = resetByte a := rfl

theorem Memory.read_cons (b : Nat) (v : Byte) (m : Memory) (a : Nat) :
    Memory.read ((b, v) :: m) a = if b = a then v else Memory.read m a := rfl

theorem Memory.erase_cons (b : Nat) (v : Byte) (m : Memory) (a : Nat) :
    Memory.erase ((b, v) :: m) a = if b = a then Memory.erase m a else (b, v) :: Memory.erase m a := by
  by_cases h : b = a <;> simp [Memory.erase, h]

/-- Erasing an address makes it read as its reset contents. -/
theorem Memory.read_erase_same (m : Memory) (a : Nat) : (m.erase a).read a = resetByte a := by
  induction m with
  | nil => rfl
  | cons c m ih =>
    obtain ⟨b, v⟩ := c
    rw [Memory.erase_cons]
    split
    · exact ih
    · rw [Memory.read_cons, if_neg (by assumption), ih]

/-- Erasing an address leaves every other one. -/
theorem Memory.read_erase_other (m : Memory) {a b : Nat} (h : b ≠ a) : (m.erase a).read b = m.read b := by
  induction m with
  | nil => rfl
  | cons c m ih =>
    obtain ⟨d, v⟩ := c
    rw [Memory.erase_cons, Memory.read_cons]
    split
    · subst d; rw [ih, if_neg (Ne.symm h)]
    · rw [Memory.read_cons, ih]

/-- Inserting leaves every other address. -/
theorem Memory.read_insert_other (m : Memory) (v : Byte) {a b : Nat} (h : b ≠ a) :
    (m.insert a v).read b = m.read b := by
  induction m with
  | nil => simp [Memory.insert, Memory.read_cons, Ne.symm h]
  | cons c m ih =>
    obtain ⟨d, w⟩ := c
    simp only [Memory.insert]
    split
    · rw [Memory.read_cons, if_neg (Ne.symm h)]
    · rw [Memory.read_cons, Memory.read_cons, ih]

/-- An inserted byte is read back where the address was erased. -/
theorem Memory.read_insert_erase (m : Memory) (a : Nat) (v : Byte) : ((m.erase a).insert a v).read a = v := by
  induction m with
  | nil => simp [Memory.erase, Memory.insert, Memory.read_cons]
  | cons c m ih =>
    obtain ⟨b, w⟩ := c
    rw [Memory.erase_cons]
    split
    · exact ih
    · next hb =>
      simp only [Memory.insert]
      split
      · simp [Memory.read_cons]
      · rw [Memory.read_cons, if_neg hb, ih]

/-- Read after write to the same address. -/
@[simp] theorem Memory.read_write_same (m : Memory) (a : Nat) (v : Byte) : (m.write a v).read a = v := by
  unfold Memory.write
  split
  · next h => rw [Memory.read_erase_same, h]
  · exact Memory.read_insert_erase m a v

/-- A write leaves every other address alone. -/
theorem Memory.read_write_other (m : Memory) (v : Byte) {a b : Nat} (h : b ≠ a) : (m.write a v).read b = m.read b := by
  unfold Memory.write
  split
  · exact Memory.read_erase_other m h
  · rw [Memory.read_insert_other _ _ h, Memory.read_erase_other m h]

/-- Read after write. -/
theorem Memory.read_write (m : Memory) (a b : Nat) (v : Byte) :
    (m.write a v).read b = if b = a then v else m.read b := by
  split
  · next h => subst h; exact Memory.read_write_same m b v
  · next h => exact Memory.read_write_other m v h

/-- The canonical form from an address on says what the first entry is and that the rest is canonical after it. -/
theorem Memory.wfFrom_cons (lo a : Nat) (v : Byte) (m : Memory) :
    Memory.wfFrom lo ((a, v) :: m) = true ↔
      lo ≤ a ∧ a < 4096 ∧ v ≠ resetByte a ∧ Memory.wfFrom (a + 1) m = true := by
  simp [Memory.wfFrom, and_assoc]

/-- The canonical form from an address on holds from any lower one. -/
theorem Memory.wfFrom_mono {lo lo' : Nat} (h : lo' ≤ lo) (m : Memory) (hm : Memory.wfFrom lo m = true) :
    Memory.wfFrom lo' m = true := by
  cases m with
  | nil => rfl
  | cons c m =>
    obtain ⟨a, v⟩ := c
    rw [Memory.wfFrom_cons] at hm ⊢
    exact ⟨by omega, hm.2⟩

theorem Memory.wfFrom_erase (a : Nat) (m : Memory) (lo : Nat) (hm : Memory.wfFrom lo m = true) :
    Memory.wfFrom lo (m.erase a) = true := by
  induction m generalizing lo with
  | nil => rfl
  | cons c m ih =>
    obtain ⟨b, v⟩ := c
    rw [Memory.wfFrom_cons] at hm
    rw [Memory.erase_cons]
    split
    · exact Memory.wfFrom_mono (by omega) _ (ih _ hm.2.2.2)
    · rw [Memory.wfFrom_cons]
      exact ⟨hm.1, hm.2.1, hm.2.2.1, ih _ hm.2.2.2⟩

theorem Memory.wfFrom_insert {a : Nat} {v : Byte} (ha : a < 4096) (hv : v ≠ resetByte a) (m : Memory) (lo : Nat)
    (hlo : lo ≤ a) (hm : Memory.wfFrom lo m = true) (hne : ∀ c ∈ m, c.1 ≠ a) :
    Memory.wfFrom lo (m.insert a v) = true := by
  induction m generalizing lo with
  | nil => simp [Memory.insert, Memory.wfFrom, hlo, ha, hv]
  | cons c m ih =>
    obtain ⟨b, w⟩ := c
    rw [Memory.wfFrom_cons] at hm
    have hba : b ≠ a := hne (b, w) (by simp)
    simp only [Memory.insert]
    split
    · next hab =>
      rw [Memory.wfFrom_cons, Memory.wfFrom_cons]
      exact ⟨hlo, ha, hv, by omega, hm.2⟩
    · next hab =>
      rw [Memory.wfFrom_cons]
      exact ⟨hm.1, hm.2.1, hm.2.2.1, ih _ (by omega) hm.2.2.2 fun c hc => hne c (by simp [hc])⟩

/-- Every write below 4096 keeps the canonical form. -/
theorem Memory.wf_write {m : Memory} {a : Nat} (v : Byte) (ha : a < 4096) (hm : m.wf = true) :
    (m.write a v).wf = true := by
  unfold Memory.write
  split
  · exact Memory.wfFrom_erase a m 0 hm
  · next hv =>
    refine Memory.wfFrom_insert ha hv _ 0 (Nat.zero_le a) (Memory.wfFrom_erase a m 0 hm) fun c hc => ?_
    simpa using (List.mem_filter.1 hc).2

/-- The memory after reset is in canonical form. -/
theorem reset_mem_wf : State.reset.mem.wf = true := rfl

/-- In a canonical list every listed address lies in the range asked for. -/
theorem Memory.wfFrom_read_low {m : Memory} {lo a : Nat} (hm : Memory.wfFrom lo m = true) (ha : a < lo) :
    m.read a = resetByte a := by
  induction m generalizing lo with
  | nil => rfl
  | cons c m ih =>
    obtain ⟨b, v⟩ := c
    rw [Memory.wfFrom_cons] at hm
    rw [Memory.read_cons, if_neg (by omega)]
    exact ih hm.2.2.2 (by omega)

theorem Memory.eq_of_read_from {m m' : Memory} {lo : Nat} (hm : Memory.wfFrom lo m = true)
    (hm' : Memory.wfFrom lo m' = true) (h : ∀ a, m.read a = m'.read a) : m = m' := by
  induction m generalizing m' lo with
  | nil =>
    cases m' with
    | nil => rfl
    | cons c m' =>
      obtain ⟨b, v⟩ := c
      rw [Memory.wfFrom_cons] at hm'
      have := h b
      rw [Memory.read_cons, if_pos rfl] at this
      exact absurd this.symm hm'.2.2.1
  | cons c m ih =>
    obtain ⟨b, v⟩ := c
    have hc := (Memory.wfFrom_cons lo b v m).1 hm
    cases m' with
    | nil =>
      have := h b
      rw [Memory.read_cons, if_pos rfl] at this
      exact absurd this hc.2.2.1
    | cons c' m' =>
      obtain ⟨b', v'⟩ := c'
      have hc' := (Memory.wfFrom_cons lo b' v' m').1 hm'
      have hb : b = b' := by
        rcases Nat.lt_trichotomy b b' with hlt | heq | hgt
        · have := h b
          rw [Memory.read_cons, if_pos rfl, Memory.read_cons, if_neg (by omega),
            Memory.wfFrom_read_low hc'.2.2.2 (by omega)] at this
          exact absurd this hc.2.2.1
        · exact heq
        · have := h b'
          rw [Memory.read_cons, if_neg (by omega), Memory.wfFrom_read_low hc.2.2.2 (by omega), Memory.read_cons,
            if_pos rfl] at this
          exact absurd this.symm hc'.2.2.1
      subst hb
      have hv : v = v' := by
        have := h b
        rwa [Memory.read_cons, if_pos rfl, Memory.read_cons, if_pos rfl] at this
      subst hv
      congr 1
      refine ih hc.2.2.2 hc'.2.2.2 fun a => ?_
      by_cases hab : b = a
      · subst hab
        rw [Memory.wfFrom_read_low hc.2.2.2 (by omega), Memory.wfFrom_read_low hc'.2.2.2 (by omega)]
      · have := h a
        rwa [Memory.read_cons, if_neg hab, Memory.read_cons, if_neg hab] at this

/-- The canonical form is canonical: two memories in it that read the same everywhere are equal lists. -/
theorem Memory.eq_of_read {m m' : Memory} (hm : m.wf = true) (hm' : m'.wf = true) (h : ∀ a, m.read a = m'.read a) :
    m = m' :=
  Memory.eq_of_read_from hm hm' h

end Sys2Proof.Machine
end

