-- ==== Sys2Proof/Laws/State.lean ====
section
/-! SUPPORT. One lemma per field per update of the state, and one per read of a part an update leaves alone; all by rfl. -/

namespace Sys2Proof.Machine

/-! ## `setPc` -/

@[simp] theorem State.setPc_mem (s : State) (t : Word) : (s.setPc t).mem = s.mem := rfl
@[simp] theorem State.setPc_V (s : State) (t : Word) : (s.setPc t).V = s.V := rfl
@[simp] theorem State.setPc_I (s : State) (t : Word) : (s.setPc t).I = s.I := rfl
@[simp] theorem State.setPc_pc (s : State) (t : Word) : (s.setPc t).pc = t := rfl
@[simp] theorem State.setPc_stack (s : State) (t : Word) : (s.setPc t).stack = s.stack := rfl
@[simp] theorem State.setPc_sp (s : State) (t : Word) : (s.setPc t).sp = s.sp := rfl
@[simp] theorem State.setPc_dt (s : State) (t : Word) : (s.setPc t).dt = s.dt := rfl
@[simp] theorem State.setPc_st (s : State) (t : Word) : (s.setPc t).st = s.st := rfl
@[simp] theorem State.setPc_keypad (s : State) (t : Word) : (s.setPc t).keypad = s.keypad := rfl
@[simp] theorem State.setPc_fb (s : State) (t : Word) : (s.setPc t).fb = s.fb := rfl
@[simp] theorem State.setPc_env (s : State) (t : Word) : (s.setPc t).env = s.env := rfl
@[simp] theorem State.setPc_reg (s : State) (t : Word) (r' : Nibble) : (s.setPc t).reg r' = s.reg r' := rfl
@[simp] theorem State.setPc_memRead (s : State) (t : Word) (a' : Nat) : (s.setPc t).memRead a' = s.memRead a' := rfl
@[simp] theorem State.setPc_slot (s : State) (t : Word) (k : Nat) : (s.setPc t).slot k = s.slot k := rfl
@[simp] theorem State.setPc_pixel (s : State) (t : Word) (x' y' : Nat) : (s.setPc t).pixel x' y' = s.pixel x' y' := rfl
@[simp] theorem State.setPc_keyDown (s : State) (t : Word) (k : Nat) : (s.setPc t).keyDown k = s.keyDown k := rfl
@[simp] theorem State.setPc_effAddr (s : State) (t : Word) (k : Nat) : (s.setPc t).effAddr k = s.effAddr k := rfl

/-! ## `setI` -/

@[simp] theorem State.setI_mem (s : State) (w : Word) : (s.setI w).mem = s.mem := rfl
@[simp] theorem State.setI_V (s : State) (w : Word) : (s.setI w).V = s.V := rfl
@[simp] theorem State.setI_I (s : State) (w : Word) : (s.setI w).I = w := rfl
@[simp] theorem State.setI_pc (s : State) (w : Word) : (s.setI w).pc = s.pc := rfl
@[simp] theorem State.setI_stack (s : State) (w : Word) : (s.setI w).stack = s.stack := rfl
@[simp] theorem State.setI_sp (s : State) (w : Word) : (s.setI w).sp = s.sp := rfl
@[simp] theorem State.setI_dt (s : State) (w : Word) : (s.setI w).dt = s.dt := rfl
@[simp] theorem State.setI_st (s : State) (w : Word) : (s.setI w).st = s.st := rfl
@[simp] theorem State.setI_keypad (s : State) (w : Word) : (s.setI w).keypad = s.keypad := rfl
@[simp] theorem State.setI_fb (s : State) (w : Word) : (s.setI w).fb = s.fb := rfl
@[simp] theorem State.setI_env (s : State) (w : Word) : (s.setI w).env = s.env := rfl
@[simp] theorem State.setI_reg (s : State) (w : Word) (r' : Nibble) : (s.setI w).reg r' = s.reg r' := rfl
@[simp] theorem State.setI_memRead (s : State) (w : Word) (a' : Nat) : (s.setI w).memRead a' = s.memRead a' := rfl
@[simp] theorem State.setI_slot (s : State) (w : Word) (k : Nat) : (s.setI w).slot k = s.slot k := rfl
@[simp] theorem State.setI_pixel (s : State) (w : Word) (x' y' : Nat) : (s.setI w).pixel x' y' = s.pixel x' y' := rfl
@[simp] theorem State.setI_fetchWord (s : State) (w : Word) : (s.setI w).fetchWord = s.fetchWord := rfl
@[simp] theorem State.setI_keyDown (s : State) (w : Word) (k : Nat) : (s.setI w).keyDown k = s.keyDown k := rfl

/-! ## `setSp` -/

@[simp] theorem State.setSp_mem (s : State) (n : Byte) : (s.setSp n).mem = s.mem := rfl
@[simp] theorem State.setSp_V (s : State) (n : Byte) : (s.setSp n).V = s.V := rfl
@[simp] theorem State.setSp_I (s : State) (n : Byte) : (s.setSp n).I = s.I := rfl
@[simp] theorem State.setSp_pc (s : State) (n : Byte) : (s.setSp n).pc = s.pc := rfl
@[simp] theorem State.setSp_stack (s : State) (n : Byte) : (s.setSp n).stack = s.stack := rfl
@[simp] theorem State.setSp_sp (s : State) (n : Byte) : (s.setSp n).sp = n := rfl
@[simp] theorem State.setSp_dt (s : State) (n : Byte) : (s.setSp n).dt = s.dt := rfl
@[simp] theorem State.setSp_st (s : State) (n : Byte) : (s.setSp n).st = s.st := rfl
@[simp] theorem State.setSp_keypad (s : State) (n : Byte) : (s.setSp n).keypad = s.keypad := rfl
@[simp] theorem State.setSp_fb (s : State) (n : Byte) : (s.setSp n).fb = s.fb := rfl
@[simp] theorem State.setSp_env (s : State) (n : Byte) : (s.setSp n).env = s.env := rfl
@[simp] theorem State.setSp_reg (s : State) (n : Byte) (r' : Nibble) : (s.setSp n).reg r' = s.reg r' := rfl
@[simp] theorem State.setSp_memRead (s : State) (n : Byte) (a' : Nat) : (s.setSp n).memRead a' = s.memRead a' := rfl
@[simp] theorem State.setSp_slot (s : State) (n : Byte) (k : Nat) : (s.setSp n).slot k = s.slot k := rfl
@[simp] theorem State.setSp_pixel (s : State) (n : Byte) (x' y' : Nat) : (s.setSp n).pixel x' y' = s.pixel x' y' := rfl
@[simp] theorem State.setSp_fetchWord (s : State) (n : Byte) : (s.setSp n).fetchWord = s.fetchWord := rfl
@[simp] theorem State.setSp_keyDown (s : State) (n : Byte) (k : Nat) : (s.setSp n).keyDown k = s.keyDown k := rfl
@[simp] theorem State.setSp_effAddr (s : State) (n : Byte) (k : Nat) : (s.setSp n).effAddr k = s.effAddr k := rfl

/-! ## `setDt` -/

@[simp] theorem State.setDt_mem (s : State) (b : Byte) : (s.setDt b).mem = s.mem := rfl
@[simp] theorem State.setDt_V (s : State) (b : Byte) : (s.setDt b).V = s.V := rfl
@[simp] theorem State.setDt_I (s : State) (b : Byte) : (s.setDt b).I = s.I := rfl
@[simp] theorem State.setDt_pc (s : State) (b : Byte) : (s.setDt b).pc = s.pc := rfl
@[simp] theorem State.setDt_stack (s : State) (b : Byte) : (s.setDt b).stack = s.stack := rfl
@[simp] theorem State.setDt_sp (s : State) (b : Byte) : (s.setDt b).sp = s.sp := rfl
@[simp] theorem State.setDt_dt (s : State) (b : Byte) : (s.setDt b).dt = b := rfl
@[simp] theorem State.setDt_st (s : State) (b : Byte) : (s.setDt b).st = s.st := rfl
@[simp] theorem State.setDt_keypad (s : State) (b : Byte) : (s.setDt b).keypad = s.keypad := rfl
@[simp] theorem State.setDt_fb (s : State) (b : Byte) : (s.setDt b).fb = s.fb := rfl
@[simp] theorem State.setDt_env (s : State) (b : Byte) : (s.setDt b).env = s.env := rfl
@[simp] theorem State.setDt_reg (s : State) (b : Byte) (r' : Nibble) : (s.setDt b).reg r' = s.reg r' := rfl
@[simp] theorem State.setDt_memRead (s : State) (b : Byte) (a' : Nat) : (s.setDt b).memRead a' = s.memRead a' := rfl
@[simp] theorem State.setDt_slot (s : State) (b : Byte) (k : Nat) : (s.setDt b).slot k = s.slot k := rfl
@[simp] theorem State.setDt_pixel (s : State) (b : Byte) (x' y' : Nat) : (s.setDt b).pixel x' y' = s.pixel x' y' := rfl
@[simp] theorem State.setDt_fetchWord (s : State) (b : Byte) : (s.setDt b).fetchWord = s.fetchWord := rfl
@[simp] theorem State.setDt_keyDown (s : State) (b : Byte) (k : Nat) : (s.setDt b).keyDown k = s.keyDown k := rfl
@[simp] theorem State.setDt_effAddr (s : State) (b : Byte) (k : Nat) : (s.setDt b).effAddr k = s.effAddr k := rfl

/-! ## `setSt` -/

@[simp] theorem State.setSt_mem (s : State) (b : Byte) : (s.setSt b).mem = s.mem := rfl
@[simp] theorem State.setSt_V (s : State) (b : Byte) : (s.setSt b).V = s.V := rfl
@[simp] theorem State.setSt_I (s : State) (b : Byte) : (s.setSt b).I = s.I := rfl
@[simp] theorem State.setSt_pc (s : State) (b : Byte) : (s.setSt b).pc = s.pc := rfl
@[simp] theorem State.setSt_stack (s : State) (b : Byte) : (s.setSt b).stack = s.stack := rfl
@[simp] theorem State.setSt_sp (s : State) (b : Byte) : (s.setSt b).sp = s.sp := rfl
@[simp] theorem State.setSt_dt (s : State) (b : Byte) : (s.setSt b).dt = s.dt := rfl
@[simp] theorem State.setSt_st (s : State) (b : Byte) : (s.setSt b).st = b := rfl
@[simp] theorem State.setSt_keypad (s : State) (b : Byte) : (s.setSt b).keypad = s.keypad := rfl
@[simp] theorem State.setSt_fb (s : State) (b : Byte) : (s.setSt b).fb = s.fb := rfl
@[simp] theorem State.setSt_env (s : State) (b : Byte) : (s.setSt b).env = s.env := rfl
@[simp] theorem State.setSt_reg (s : State) (b : Byte) (r' : Nibble) : (s.setSt b).reg r' = s.reg r' := rfl
@[simp] theorem State.setSt_memRead (s : State) (b : Byte) (a' : Nat) : (s.setSt b).memRead a' = s.memRead a' := rfl
@[simp] theorem State.setSt_slot (s : State) (b : Byte) (k : Nat) : (s.setSt b).slot k = s.slot k := rfl
@[simp] theorem State.setSt_pixel (s : State) (b : Byte) (x' y' : Nat) : (s.setSt b).pixel x' y' = s.pixel x' y' := rfl
@[simp] theorem State.setSt_fetchWord (s : State) (b : Byte) : (s.setSt b).fetchWord = s.fetchWord := rfl
@[simp] theorem State.setSt_keyDown (s : State) (b : Byte) (k : Nat) : (s.setSt b).keyDown k = s.keyDown k := rfl
@[simp] theorem State.setSt_effAddr (s : State) (b : Byte) (k : Nat) : (s.setSt b).effAddr k = s.effAddr k := rfl

/-! ## `setKeypad` -/

@[simp] theorem State.setKeypad_mem (s : State) (m : Word) : (s.setKeypad m).mem = s.mem := rfl
@[simp] theorem State.setKeypad_V (s : State) (m : Word) : (s.setKeypad m).V = s.V := rfl
@[simp] theorem State.setKeypad_I (s : State) (m : Word) : (s.setKeypad m).I = s.I := rfl
@[simp] theorem State.setKeypad_pc (s : State) (m : Word) : (s.setKeypad m).pc = s.pc := rfl
@[simp] theorem State.setKeypad_stack (s : State) (m : Word) : (s.setKeypad m).stack = s.stack := rfl
@[simp] theorem State.setKeypad_sp (s : State) (m : Word) : (s.setKeypad m).sp = s.sp := rfl
@[simp] theorem State.setKeypad_dt (s : State) (m : Word) : (s.setKeypad m).dt = s.dt := rfl
@[simp] theorem State.setKeypad_st (s : State) (m : Word) : (s.setKeypad m).st = s.st := rfl
@[simp] theorem State.setKeypad_keypad (s : State) (m : Word) : (s.setKeypad m).keypad = m := rfl
@[simp] theorem State.setKeypad_fb (s : State) (m : Word) : (s.setKeypad m).fb = s.fb := rfl
@[simp] theorem State.setKeypad_env (s : State) (m : Word) : (s.setKeypad m).env = s.env := rfl
@[simp] theorem State.setKeypad_reg (s : State) (m : Word) (r' : Nibble) : (s.setKeypad m).reg r' = s.reg r' := rfl
@[simp] theorem State.setKeypad_memRead (s : State) (m : Word) (a' : Nat) : (s.setKeypad m).memRead a' = s.memRead a' := rfl
@[simp] theorem State.setKeypad_slot (s : State) (m : Word) (k : Nat) : (s.setKeypad m).slot k = s.slot k := rfl
@[simp] theorem State.setKeypad_pixel (s : State) (m : Word) (x' y' : Nat) : (s.setKeypad m).pixel x' y' = s.pixel x' y' := rfl
@[simp] theorem State.setKeypad_fetchWord (s : State) (m : Word) : (s.setKeypad m).fetchWord = s.fetchWord := rfl
@[simp] theorem State.setKeypad_effAddr (s : State) (m : Word) (k : Nat) : (s.setKeypad m).effAddr k = s.effAddr k := rfl

/-! ## `setFb` -/

@[simp] theorem State.setFb_mem (s : State) (f : Vector (BitVec 64) 32) : (s.setFb f).mem = s.mem := rfl
@[simp] theorem State.setFb_V (s : State) (f : Vector (BitVec 64) 32) : (s.setFb f).V = s.V := rfl
@[simp] theorem State.setFb_I (s : State) (f : Vector (BitVec 64) 32) : (s.setFb f).I = s.I := rfl
@[simp] theorem State.setFb_pc (s : State) (f : Vector (BitVec 64) 32) : (s.setFb f).pc = s.pc := rfl
@[simp] theorem State.setFb_stack (s : State) (f : Vector (BitVec 64) 32) : (s.setFb f).stack = s.stack := rfl
@[simp] theorem State.setFb_sp (s : State) (f : Vector (BitVec 64) 32) : (s.setFb f).sp = s.sp := rfl
@[simp] theorem State.setFb_dt (s : State) (f : Vector (BitVec 64) 32) : (s.setFb f).dt = s.dt := rfl
@[simp] theorem State.setFb_st (s : State) (f : Vector (BitVec 64) 32) : (s.setFb f).st = s.st := rfl
@[simp] theorem State.setFb_keypad (s : State) (f : Vector (BitVec 64) 32) : (s.setFb f).keypad = s.keypad := rfl
@[simp] theorem State.setFb_fb (s : State) (f : Vector (BitVec 64) 32) : (s.setFb f).fb = f := rfl
@[simp] theorem State.setFb_env (s : State) (f : Vector (BitVec 64) 32) : (s.setFb f).env = s.env := rfl
@[simp] theorem State.setFb_reg (s : State) (f : Vector (BitVec 64) 32) (r' : Nibble) : (s.setFb f).reg r' = s.reg r' := rfl
@[simp] theorem State.setFb_memRead (s : State) (f : Vector (BitVec 64) 32) (a' : Nat) : (s.setFb f).memRead a' = s.memRead a' := rfl
@[simp] theorem State.setFb_slot (s : State) (f : Vector (BitVec 64) 32) (k : Nat) : (s.setFb f).slot k = s.slot k := rfl
@[simp] theorem State.setFb_fetchWord (s : State) (f : Vector (BitVec 64) 32) : (s.setFb f).fetchWord = s.fetchWord := rfl
@[simp] theorem State.setFb_keyDown (s : State) (f : Vector (BitVec 64) 32) (k : Nat) : (s.setFb f).keyDown k = s.keyDown k := rfl
@[simp] theorem State.setFb_effAddr (s : State) (f : Vector (BitVec 64) 32) (k : Nat) : (s.setFb f).effAddr k = s.effAddr k := rfl

/-! ## `setMem` -/

@[simp] theorem State.setMem_mem (s : State) (m : Memory) : (s.setMem m).mem = m := rfl
@[simp] theorem State.setMem_V (s : State) (m : Memory) : (s.setMem m).V = s.V := rfl
@[simp] theorem State.setMem_I (s : State) (m : Memory) : (s.setMem m).I = s.I := rfl
@[simp] theorem State.setMem_pc (s : State) (m : Memory) : (s.setMem m).pc = s.pc := rfl
@[simp] theorem State.setMem_stack (s : State) (m : Memory) : (s.setMem m).stack = s.stack := rfl
@[simp] theorem State.setMem_sp (s : State) (m : Memory) : (s.setMem m).sp = s.sp := rfl
@[simp] theorem State.setMem_dt (s : State) (m : Memory) : (s.setMem m).dt = s.dt := rfl
@[simp] theorem State.setMem_st (s : State) (m : Memory) : (s.setMem m).st = s.st := rfl
@[simp] theorem State.setMem_keypad (s : State) (m : Memory) : (s.setMem m).keypad = s.keypad := rfl
@[simp] theorem State.setMem_fb (s : State) (m : Memory) : (s.setMem m).fb = s.fb := rfl
@[simp] theorem State.setMem_env (s : State) (m : Memory) : (s.setMem m).env = s.env := rfl
@[simp] theorem State.setMem_reg (s : State) (m : Memory) (r' : Nibble) : (s.setMem m).reg r' = s.reg r' := rfl
@[simp] theorem State.setMem_slot (s : State) (m : Memory) (k : Nat) : (s.setMem m).slot k = s.slot k := rfl
@[simp] theorem State.setMem_pixel (s : State) (m : Memory) (x' y' : Nat) : (s.setMem m).pixel x' y' = s.pixel x' y' := rfl
@[simp] theorem State.setMem_keyDown (s : State) (m : Memory) (k : Nat) : (s.setMem m).keyDown k = s.keyDown k := rfl
@[simp] theorem State.setMem_effAddr (s : State) (m : Memory) (k : Nat) : (s.setMem m).effAddr k = s.effAddr k := rfl

/-! ## `setEnv` -/

@[simp] theorem State.setEnv_mem (s : State) (e : Env) : (s.setEnv e).mem = s.mem := rfl
@[simp] theorem State.setEnv_V (s : State) (e : Env) : (s.setEnv e).V = s.V := rfl
@[simp] theorem State.setEnv_I (s : State) (e : Env) : (s.setEnv e).I = s.I := rfl
@[simp] theorem State.setEnv_pc (s : State) (e : Env) : (s.setEnv e).pc = s.pc := rfl
@[simp] theorem State.setEnv_stack (s : State) (e : Env) : (s.setEnv e).stack = s.stack := rfl
@[simp] theorem State.setEnv_sp (s : State) (e : Env) : (s.setEnv e).sp = s.sp := rfl
@[simp] theorem State.setEnv_dt (s : State) (e : Env) : (s.setEnv e).dt = s.dt := rfl
@[simp] theorem State.setEnv_st (s : State) (e : Env) : (s.setEnv e).st = s.st := rfl
@[simp] theorem State.setEnv_keypad (s : State) (e : Env) : (s.setEnv e).keypad = s.keypad := rfl
@[simp] theorem State.setEnv_fb (s : State) (e : Env) : (s.setEnv e).fb = s.fb := rfl
@[simp] theorem State.setEnv_env (s : State) (e : Env) : (s.setEnv e).env = e := rfl
@[simp] theorem State.setEnv_reg (s : State) (e : Env) (r' : Nibble) : (s.setEnv e).reg r' = s.reg r' := rfl
@[simp] theorem State.setEnv_memRead (s : State) (e : Env) (a' : Nat) : (s.setEnv e).memRead a' = s.memRead a' := rfl
@[simp] theorem State.setEnv_slot (s : State) (e : Env) (k : Nat) : (s.setEnv e).slot k = s.slot k := rfl
@[simp] theorem State.setEnv_pixel (s : State) (e : Env) (x' y' : Nat) : (s.setEnv e).pixel x' y' = s.pixel x' y' := rfl
@[simp] theorem State.setEnv_fetchWord (s : State) (e : Env) : (s.setEnv e).fetchWord = s.fetchWord := rfl
@[simp] theorem State.setEnv_keyDown (s : State) (e : Env) (k : Nat) : (s.setEnv e).keyDown k = s.keyDown k := rfl
@[simp] theorem State.setEnv_effAddr (s : State) (e : Env) (k : Nat) : (s.setEnv e).effAddr k = s.effAddr k := rfl

/-! ## `setReg` -/

@[simp] theorem State.setReg_mem (s : State) (r : Nibble) (b : Byte) : (s.setReg r b).mem = s.mem := rfl
@[simp] theorem State.setReg_V (s : State) (r : Nibble) (b : Byte) : (s.setReg r b).V = s.V.set r.toNat b (regIndex_lt r) := rfl
@[simp] theorem State.setReg_I (s : State) (r : Nibble) (b : Byte) : (s.setReg r b).I = s.I := rfl
@[simp] theorem State.setReg_pc (s : State) (r : Nibble) (b : Byte) : (s.setReg r b).pc = s.pc := rfl
@[simp] theorem State.setReg_stack (s : State) (r : Nibble) (b : Byte) : (s.setReg r b).stack = s.stack := rfl
@[simp] theorem State.setReg_sp (s : State) (r : Nibble) (b : Byte) : (s.setReg r b).sp = s.sp := rfl
@[simp] theorem State.setReg_dt (s : State) (r : Nibble) (b : Byte) : (s.setReg r b).dt = s.dt := rfl
@[simp] theorem State.setReg_st (s : State) (r : Nibble) (b : Byte) : (s.setReg r b).st = s.st := rfl
@[simp] theorem State.setReg_keypad (s : State) (r : Nibble) (b : Byte) : (s.setReg r b).keypad = s.keypad := rfl
@[simp] theorem State.setReg_fb (s : State) (r : Nibble) (b : Byte) : (s.setReg r b).fb = s.fb := rfl
@[simp] theorem State.setReg_env (s : State) (r : Nibble) (b : Byte) : (s.setReg r b).env = s.env := rfl
@[simp] theorem State.setReg_memRead (s : State) (r : Nibble) (b : Byte) (a' : Nat) : (s.setReg r b).memRead a' = s.memRead a' := rfl
@[simp] theorem State.setReg_slot (s : State) (r : Nibble) (b : Byte) (k : Nat) : (s.setReg r b).slot k = s.slot k := rfl
@[simp] theorem State.setReg_pixel (s : State) (r : Nibble) (b : Byte) (x' y' : Nat) : (s.setReg r b).pixel x' y' = s.pixel x' y' := rfl
@[simp] theorem State.setReg_fetchWord (s : State) (r : Nibble) (b : Byte) : (s.setReg r b).fetchWord = s.fetchWord := rfl
@[simp] theorem State.setReg_keyDown (s : State) (r : Nibble) (b : Byte) (k : Nat) : (s.setReg r b).keyDown k = s.keyDown k := rfl
@[simp] theorem State.setReg_effAddr (s : State) (r : Nibble) (b : Byte) (k : Nat) : (s.setReg r b).effAddr k = s.effAddr k := rfl

/-! ## `memWrite` -/

@[simp] theorem State.memWrite_mem (s : State) (a : Nat) (v : Byte) : (s.memWrite a v).mem = s.mem.write (a % 4096) v := rfl
@[simp] theorem State.memWrite_V (s : State) (a : Nat) (v : Byte) : (s.memWrite a v).V = s.V := rfl
@[simp] theorem State.memWrite_I (s : State) (a : Nat) (v : Byte) : (s.memWrite a v).I = s.I := rfl
@[simp] theorem State.memWrite_pc (s : State) (a : Nat) (v : Byte) : (s.memWrite a v).pc = s.pc := rfl
@[simp] theorem State.memWrite_stack (s : State) (a : Nat) (v : Byte) : (s.memWrite a v).stack = s.stack := rfl
@[simp] theorem State.memWrite_sp (s : State) (a : Nat) (v : Byte) : (s.memWrite a v).sp = s.sp := rfl
@[simp] theorem State.memWrite_dt (s : State) (a : Nat) (v : Byte) : (s.memWrite a v).dt = s.dt := rfl
@[simp] theorem State.memWrite_st (s : State) (a : Nat) (v : Byte) : (s.memWrite a v).st = s.st := rfl
@[simp] theorem State.memWrite_keypad (s : State) (a : Nat) (v : Byte) : (s.memWrite a v).keypad = s.keypad := rfl
@[simp] theorem State.memWrite_fb (s : State) (a : Nat) (v : Byte) : (s.memWrite a v).fb = s.fb := rfl
@[simp] theorem State.memWrite_env (s : State) (a : Nat) (v : Byte) : (s.memWrite a v).env = s.env := rfl
@[simp] theorem State.memWrite_reg (s : State) (a : Nat) (v : Byte) (r' : Nibble) : (s.memWrite a v).reg r' = s.reg r' := rfl
@[simp] theorem State.memWrite_slot (s : State) (a : Nat) (v : Byte) (k : Nat) : (s.memWrite a v).slot k = s.slot k := rfl
@[simp] theorem State.memWrite_pixel (s : State) (a : Nat) (v : Byte) (x' y' : Nat) : (s.memWrite a v).pixel x' y' = s.pixel x' y' := rfl
@[simp] theorem State.memWrite_keyDown (s : State) (a : Nat) (v : Byte) (k : Nat) : (s.memWrite a v).keyDown k = s.keyDown k := rfl
@[simp] theorem State.memWrite_effAddr (s : State) (a : Nat) (v : Byte) (k : Nat) : (s.memWrite a v).effAddr k = s.effAddr k := rfl

/-! ## `push` -/

@[simp] theorem State.push_mem (s : State) (t : Word) : (s.push t).mem = s.mem := rfl
@[simp] theorem State.push_V (s : State) (t : Word) : (s.push t).V = s.V := rfl
@[simp] theorem State.push_I (s : State) (t : Word) : (s.push t).I = s.I := rfl
@[simp] theorem State.push_pc (s : State) (t : Word) : (s.push t).pc = s.pc := rfl
@[simp] theorem State.push_stack (s : State) (t : Word) : (s.push t).stack = s.stack.setIfInBounds s.sp.toNat t := rfl
@[simp] theorem State.push_sp (s : State) (t : Word) : (s.push t).sp = s.sp + 1 := rfl
@[simp] theorem State.push_dt (s : State) (t : Word) : (s.push t).dt = s.dt := rfl
@[simp] theorem State.push_st (s : State) (t : Word) : (s.push t).st = s.st := rfl
@[simp] theorem State.push_keypad (s : State) (t : Word) : (s.push t).keypad = s.keypad := rfl
@[simp] theorem State.push_fb (s : State) (t : Word) : (s.push t).fb = s.fb := rfl
@[simp] theorem State.push_env (s : State) (t : Word) : (s.push t).env = s.env := rfl
@[simp] theorem State.push_reg (s : State) (t : Word) (r' : Nibble) : (s.push t).reg r' = s.reg r' := rfl
@[simp] theorem State.push_memRead (s : State) (t : Word) (a' : Nat) : (s.push t).memRead a' = s.memRead a' := rfl
@[simp] theorem State.push_pixel (s : State) (t : Word) (x' y' : Nat) : (s.push t).pixel x' y' = s.pixel x' y' := rfl
@[simp] theorem State.push_fetchWord (s : State) (t : Word) : (s.push t).fetchWord = s.fetchWord := rfl
@[simp] theorem State.push_keyDown (s : State) (t : Word) (k : Nat) : (s.push t).keyDown k = s.keyDown k := rfl
@[simp] theorem State.push_effAddr (s : State) (t : Word) (k : Nat) : (s.push t).effAddr k = s.effAddr k := rfl

/-! ## `setSchedule` -/

@[simp] theorem State.setSchedule_mem (s : State) (l : List Event) : (s.setSchedule l).mem = s.mem := rfl
@[simp] theorem State.setSchedule_V (s : State) (l : List Event) : (s.setSchedule l).V = s.V := rfl
@[simp] theorem State.setSchedule_I (s : State) (l : List Event) : (s.setSchedule l).I = s.I := rfl
@[simp] theorem State.setSchedule_pc (s : State) (l : List Event) : (s.setSchedule l).pc = s.pc := rfl
@[simp] theorem State.setSchedule_stack (s : State) (l : List Event) : (s.setSchedule l).stack = s.stack := rfl
@[simp] theorem State.setSchedule_sp (s : State) (l : List Event) : (s.setSchedule l).sp = s.sp := rfl
@[simp] theorem State.setSchedule_dt (s : State) (l : List Event) : (s.setSchedule l).dt = s.dt := rfl
@[simp] theorem State.setSchedule_st (s : State) (l : List Event) : (s.setSchedule l).st = s.st := rfl
@[simp] theorem State.setSchedule_keypad (s : State) (l : List Event) : (s.setSchedule l).keypad = s.keypad := rfl
@[simp] theorem State.setSchedule_fb (s : State) (l : List Event) : (s.setSchedule l).fb = s.fb := rfl
@[simp] theorem State.setSchedule_env (s : State) (l : List Event) : (s.setSchedule l).env = { s.env with schedule := l } := rfl
@[simp] theorem State.setSchedule_reg (s : State) (l : List Event) (r' : Nibble) : (s.setSchedule l).reg r' = s.reg r' := rfl
@[simp] theorem State.setSchedule_memRead (s : State) (l : List Event) (a' : Nat) : (s.setSchedule l).memRead a' = s.memRead a' := rfl
@[simp] theorem State.setSchedule_slot (s : State) (l : List Event) (k : Nat) : (s.setSchedule l).slot k = s.slot k := rfl
@[simp] theorem State.setSchedule_pixel (s : State) (l : List Event) (x' y' : Nat) : (s.setSchedule l).pixel x' y' = s.pixel x' y' := rfl
@[simp] theorem State.setSchedule_fetchWord (s : State) (l : List Event) : (s.setSchedule l).fetchWord = s.fetchWord := rfl
@[simp] theorem State.setSchedule_keyDown (s : State) (l : List Event) (k : Nat) : (s.setSchedule l).keyDown k = s.keyDown k := rfl
@[simp] theorem State.setSchedule_effAddr (s : State) (l : List Event) (k : Nat) : (s.setSchedule l).effAddr k = s.effAddr k := rfl

/-! ## `setStatus` -/

@[simp] theorem State.setStatus_mem (s : State) (x : Status) : (s.setStatus x).mem = s.mem := rfl
@[simp] theorem State.setStatus_V (s : State) (x : Status) : (s.setStatus x).V = s.V := rfl
@[simp] theorem State.setStatus_I (s : State) (x : Status) : (s.setStatus x).I = s.I := rfl
@[simp] theorem State.setStatus_pc (s : State) (x : Status) : (s.setStatus x).pc = s.pc := rfl
@[simp] theorem State.setStatus_stack (s : State) (x : Status) : (s.setStatus x).stack = s.stack := rfl
@[simp] theorem State.setStatus_sp (s : State) (x : Status) : (s.setStatus x).sp = s.sp := rfl
@[simp] theorem State.setStatus_dt (s : State) (x : Status) : (s.setStatus x).dt = s.dt := rfl
@[simp] theorem State.setStatus_st (s : State) (x : Status) : (s.setStatus x).st = s.st := rfl
@[simp] theorem State.setStatus_keypad (s : State) (x : Status) : (s.setStatus x).keypad = s.keypad := rfl
@[simp] theorem State.setStatus_fb (s : State) (x : Status) : (s.setStatus x).fb = s.fb := rfl
@[simp] theorem State.setStatus_env (s : State) (x : Status) : (s.setStatus x).env = { s.env with status := some x } := rfl
@[simp] theorem State.setStatus_reg (s : State) (x : Status) (r' : Nibble) : (s.setStatus x).reg r' = s.reg r' := rfl
@[simp] theorem State.setStatus_memRead (s : State) (x : Status) (a' : Nat) : (s.setStatus x).memRead a' = s.memRead a' := rfl
@[simp] theorem State.setStatus_slot (s : State) (x : Status) (k : Nat) : (s.setStatus x).slot k = s.slot k := rfl
@[simp] theorem State.setStatus_pixel (s : State) (x : Status) (x' y' : Nat) : (s.setStatus x).pixel x' y' = s.pixel x' y' := rfl
@[simp] theorem State.setStatus_fetchWord (s : State) (x : Status) : (s.setStatus x).fetchWord = s.fetchWord := rfl
@[simp] theorem State.setStatus_keyDown (s : State) (x : Status) (k : Nat) : (s.setStatus x).keyDown k = s.keyDown k := rfl
@[simp] theorem State.setStatus_effAddr (s : State) (x : Status) (k : Nat) : (s.setStatus x).effAddr k = s.effAddr k := rfl

end Sys2Proof.Machine
end

