-- ==== Sys2Proof/Laws/Ops.lean ====
section
/-! SUPPORT. One lemma per shared operation saying what it can do: registers, memory, stack, screen, block transfers,
keys, the end of a cycle, the cycle and the step. -/

namespace Sys2Proof.Machine

/-! ## Registers -/

/-- The flag register by its number. -/
@[simp] theorem VF_eq : VF = 15#4 := rfl

/-- A flag as a register holds it is 0 or 1, and 1 exactly when it is set. -/
theorem flagByte_spec (f : Bool) : (flagByte f = 0 ∨ flagByte f = 1) ∧ (flagByte f = 1 ↔ f = true) := by
  cases f <;> decide

/-- Reading a register after one is written. -/
theorem reg_setReg (s : State) (x r : Nibble) (b : Byte) : (s.setReg x b).reg r = if r = x then b else s.reg r := by
  have hx := x.isLt
  have hr := r.isLt
  by_cases h : r = x
  · subst h; simp [State.reg]
  · have hne : x.toNat ≠ r.toNat := fun hc => h (BitVec.eq_of_toNat_eq hc.symm)
    simp [State.reg, h, hne]

/-- The two writes of a flag-writing handler: the flag wins. -/
theorem reg_setRegAndFlag (s : State) (x r : Nibble) (b : Byte) (f : Bool) :
    (s.setRegAndFlag x b f).reg r = if r = VF then flagByte f else if r = x then b else s.reg r := by
  simp [State.setRegAndFlag, reg_setReg]

/-! ## Memory -/

/-- Reading a byte after one is written, at any two addresses. -/
theorem memRead_memWrite (s : State) (a b : Nat) (v : Byte) :
    (s.memWrite a v).memRead b = if b % 4096 = a % 4096 then v else s.memRead b := by
  simp [State.memRead, Memory.read_write]

/-- Only the address modulo 4096 matters to a read. -/
theorem memRead_mod (s : State) (a : Nat) : s.memRead (a % 4096) = s.memRead a := by simp [State.memRead]

/-- A byte written through `MemWrite` keeps the canonical form. -/
theorem wf_memWrite (s : State) (a : Nat) (v : Byte) (h : s.mem.wf = true) : (s.memWrite a v).mem.wf = true :=
  Memory.wf_write v (Nat.mod_lt a (by decide)) h

/-- Bytes written at consecutive addresses keep the canonical form. -/
theorem wf_writeBytes (s : State) (a : Nat) (bs : List Byte) (h : s.mem.wf = true) : (s.writeBytes a bs).mem.wf = true := by
  induction bs generalizing s a with
  | nil => exact h
  | cons b bs ih => exact ih _ _ (wf_memWrite s a b h)

/-- An effective address is an address. -/
theorem effAddr_lt (s : State) (k : Nat) : s.effAddr k < 4096 := Nat.mod_lt _ (by decide)

/-- The addresses of one transfer are distinct. -/
theorem effAddr_inj (s : State) {j k : Nat} (hj : j < 16) (hk : k < 16) : s.effAddr j = s.effAddr k ↔ j = k := by
  unfold State.effAddr; omega

/-! ## The stack -/

/-- The slots after a push onto a stack that is not full. -/
theorem slot_push (s : State) (t : Word) (k : Nat) (h : s.sp.toNat < 16) :
    (s.push t).slot k = if k = s.sp.toNat then some t else s.slot k := by
  simp only [State.slot, State.push_stack]
  by_cases hk : k = s.sp.toNat
  · subst hk; simp [h]
  · rw [Vector.getElem?_setIfInBounds, if_neg (Ne.symm hk), if_neg hk]

/-- A slot exists exactly below 16. -/
theorem slot_isSome (s : State) (k : Nat) : (s.slot k).isSome = decide (k < 16) := by
  by_cases h : k < 16 <;> simp [State.slot, h]

/-! ## The screen -/

/-- The framebuffer after one pixel is XORed. -/
theorem fbPixel_xorPixel (fb : Vector (BitVec 64) 32) (x y x' y' : Nat) (b : Bool) :
    fbPixel (xorPixel fb x y b) x' y' =
      (fbPixel fb x' y' ^^ (b && decide (x' % 64 = x % 64 ∧ y' % 32 = y % 32))) := by
  unfold xorPixel
  cases b with
  | false => simp
  | true =>
    simp only [if_true, fbPixel, Vector.getElem_set, Bool.true_and]
    have hx : x' % 64 < 64 := Nat.mod_lt _ (by decide)
    by_cases hy : y % 32 = y' % 32
    · simp [hy, hx, eq_comm]
    · simp [hy, Ne.symm hy]

/-! ## Block transfers -/

/-- Which part of memory the first `k` stores of a block change, and that they change nothing else. -/
theorem storeFirst_spec (s : State) (k : Nat) (hk : k ≤ 16) :
    (∀ j < k, (s.storeFirst k).memRead (s.effAddr j) = s.reg (BitVec.ofNat 4 j)) ∧
    (∀ a, (∀ j < k, a % 4096 ≠ s.effAddr j) → (s.storeFirst k).memRead a = s.memRead a) ∧
    s.storeFirst k = s.setMem (s.storeFirst k).mem := by
  induction k with
  | zero => exact ⟨fun j hj => absurd hj (Nat.not_lt_zero j), fun _ _ => rfl, rfl⟩
  | succ k ih =>
    obtain ⟨ih1, ih2, ih3⟩ := ih (by omega)
    have hmod : ∀ j, s.effAddr j % 4096 = s.effAddr j := fun j => Nat.mod_eq_of_lt (effAddr_lt s j)
    refine ⟨fun j hj => ?_, fun a ha => ?_, ?_⟩
    · simp only [State.storeFirst, memRead_memWrite, hmod, effAddr_inj s (show j < 16 by omega) (show k < 16 by omega)]
      split
      · next h => rw [h]
      · exact ih1 j (by omega)
    · simp only [State.storeFirst, memRead_memWrite, hmod]
      rw [if_neg (ha k (by omega))]
      exact ih2 a fun j hj => ha j (by omega)
    · simp only [State.storeFirst]
      rw [ih3]
      rfl

/-- Stores of a block keep the canonical form. -/
theorem wf_storeFirst (s : State) (k : Nat) (h : s.mem.wf = true) : (s.storeFirst k).mem.wf = true := by
  induction k with
  | zero => exact h
  | succ k ih => exact wf_memWrite _ _ _ ih

/-- Which registers the first `k` loads of a block change, and that they change nothing else. -/
theorem loadFirst_spec (s : State) (k : Nat) (hk : k ≤ 16) :
    (∀ r, (s.loadFirst k).reg r = if r.toNat < k then s.memRead (s.effAddr r.toNat) else s.reg r) ∧
    s.loadFirst k = { s with V := (s.loadFirst k).V } := by
  induction k with
  | zero => exact ⟨fun r => by simp [State.loadFirst], rfl⟩
  | succ k ih =>
    obtain ⟨ih1, ih2⟩ := ih (by omega)
    refine ⟨fun r => ?_, ?_⟩
    · simp only [State.loadFirst, reg_setReg, ih1]
      have hr := r.isLt
      have : (r = BitVec.ofNat 4 k) ↔ r.toNat = k := by
        rw [← BitVec.toNat_inj, BitVec.toNat_ofNat, Nat.mod_eq_of_lt (by omega)]
      by_cases h : r.toNat = k
      · subst h; simp
      · simp [mt this.1 h, show (r.toNat < k + 1) ↔ r.toNat < k by omega]
    · simp only [State.loadFirst]
      rw [ih2]
      rfl

/-! ## Keys -/

/-- The lowest key down: none exactly with no key down; else a key that is down with none below it. -/
theorem lowestKey_spec (m : Word) :
    (lowestKey m = none ↔ m = 0) ∧
    ∀ k, lowestKey m = some k ↔ k < 16 ∧ m.getLsbD k = true ∧ ∀ j < k, m.getLsbD j = false := by
  constructor
  · simp only [lowestKey, List.find?_eq_none, List.mem_range, Bool.not_eq_true]
    constructor
    · intro h
      apply BitVec.eq_of_getLsbD_eq
      intro i hi
      simp [h i hi]
    · intro h; simp [h]
  · intro k
    rw [lowestKey, List.find?_range_eq_some]
    simp [and_left_comm]

/-! ## The end of a cycle -/

/-- A completed handler always ends in a next state: the handler's own, or that with `pc` 2 further. -/
theorem complete_eq (r : Retarget) (s : State) :
    complete r s = .next (match r with | .suppress => s | .advance => s.setPc (s.pc + 2)) := by
  cases r <;> rfl

@[simp] theorem complete_suppress (s : State) : complete .suppress s = .next s := rfl

@[simp] theorem complete_advance (s : State) : complete .advance s = .next (s.setPc (s.pc + 2)) := rfl

/-- A skip changes `pc` alone. -/
theorem skipIf_eq (s : State) (c : Bool) : s.skipIf c = s.setPc (if c then s.pc + 2 else s.pc) := by
  cases c <;> rfl

/-- Raising an error is a fault that names the word and the address of the instruction. -/
@[simp] theorem raise_eq (e : Word → Word → Fault) (w : Word) (s : State) : raise e w s = .fault (e w s.pc) := rfl

/-- What follows a cycle, case by case: with a next state `u`, either the cycle completed, or it raised an error and the
driver skips. -/
theorem afterCycle_next {s u : State} {o : Host.Outcome State Fault Refusal} (h : afterCycle s o = .next u) :
    (∃ t, o = .next t ∧ u = t.setStatus .ok) ∨
    (∃ f, o = .fault f ∧ s.env.config.driverOnError = .skip ∧
      u = (s.setPc (s.pc + 2)).setStatus (.error f)) := by
  cases o with
  | next t => left; refine ⟨t, rfl, ?_⟩; injection h with h; exact h.symm
  | fault f =>
    right
    simp only [afterCycle] at h
    split at h
    · cases h
    · next hs => refine ⟨f, rfl, hs, ?_⟩; injection h with h; exact h.symm
  | refused r => cases h

/-- What one cycle can end in, when it ends in a next state. -/
theorem cycle_next {s u : State} (h : cycle s = .next u) :
    (∃ t, dispatchWord s = .next t ∧ u = t.setStatus .ok) ∨
    (∃ f, dispatchWord s = .fault f ∧ s.env.config.driverOnError = .skip ∧
      u = (s.setPc (s.pc + 2)).setStatus (.error f)) := by
  unfold cycle at h
  split at h
  · cases h
  · exact afterCycle_next h

/-- What one step can end in, when it ends in a next state: a cycle, a tick or a keypad update. -/
theorem step_next {s u : State} (h : step s = .next u) :
    (s.env.schedule = [] ∧ cycle s = .next u) ∨
    (∃ rest, s.env.schedule = .cycle :: rest ∧ cycle (s.setSchedule rest) = .next u) ∨
    (∃ rest, s.env.schedule = .tick :: rest ∧ u = (s.setSchedule rest).tick) ∨
    (∃ mask rest, s.env.schedule = .keys mask :: rest ∧ u = (s.setSchedule rest).setKeypad mask) := by
  unfold step at h
  split at h
  · next hs => exact .inl ⟨hs, h⟩
  · next rest hs => exact .inr (.inl ⟨rest, hs, h⟩)
  · next rest hs => refine .inr (.inr (.inl ⟨rest, hs, ?_⟩)); injection h with h; exact h.symm
  · next mask rest hs => refine .inr (.inr (.inr ⟨mask, rest, hs, ?_⟩)); injection h with h; exact h.symm

end Sys2Proof.Machine
end

