-- ==== Sys2Proof/Laws/Draw.lean ====
section
/-! SUPPORT. What the Draw Engine does to the picture and to the collision flag (spec/44_draw.md R145 to R147): the loops
over rows and columns against the sprite seen as a picture. -/

namespace Sys2Proof.Machine

/-- Whether the sprite of `n` rows with origin (`ox`, `oy`) has a 1 bit on the pixel of column `x` and row `y`: the pixel
lies `c` columns right and `r` rows below the origin, both modulo the grid, inside the 8 by `n` sprite, and sprite pixel
(`c`, `r`) is 1 (44_draw.md R146, R147). -/
def State.spriteOn (s : State) (ox oy n x y : Nat) : Bool :=
  let c := (x + (64 - ox % 64)) % 64
  let r := (y + (32 - oy % 32)) % 32
  decide (c < 8) && decide (r < n) && s.spriteBit r c

/-- The column of a sprite with origin `ox` that lands on screen column `x`. -/
theorem col_eq_iff (ox x c : Nat) (hc : c < 64) :
    x % 64 = (ox + c) % 64 ↔ (x + (64 - ox % 64)) % 64 = c := by omega

/-- The row of a sprite with origin `oy` that lands on screen row `y`. -/
theorem row_eq_iff (oy y r : Nat) (hr : r < 32) :
    y % 32 = (oy + r) % 32 ↔ (y + (32 - oy % 32)) % 32 = r := by omega

/-- The first `k` columns of one sprite row. -/
theorem drawRow_cols (s : State) (ox oy r : Nat) (acc : Vector (BitVec 64) 32 × Bool) (k : Nat) (hk : k ≤ 8) :
    (∀ x y, fbPixel ((List.range k).foldl (drawPixel s ox oy r) acc).1 x y =
      (fbPixel acc.1 x y ^^ (decide ((x + (64 - ox % 64)) % 64 < k) && decide (y % 32 = (oy + r) % 32) &&
        s.spriteBit r ((x + (64 - ox % 64)) % 64)))) ∧
    (((List.range k).foldl (drawPixel s ox oy r) acc).2 = true ↔
      acc.2 = true ∨ ∃ c < k, s.spriteBit r c = true ∧ fbPixel acc.1 (ox + c) (oy + r) = true) := by
  induction k with
  | zero => simp
  | succ k ih =>
    obtain ⟨ih1, ih2⟩ := ih (by omega)
    simp only [List.range_succ, List.foldl_append, List.foldl_cons, List.foldl_nil]
    generalize hm : (List.range k).foldl (drawPixel s ox oy r) acc = m at ih1 ih2
    refine ⟨fun x y => ?_, ?_⟩
    · simp only [drawPixel, fbPixel_xorPixel, ih1, col_eq_iff ox x k (by omega)]
      generalize (x + (64 - ox % 64)) % 64 = c
      by_cases hy : y % 32 = (oy + r) % 32 <;> by_cases hck : c = k
      · subst hck; simp [hy]
      · simp [hy, hck, show (c < k + 1) ↔ c < k by omega]
      · simp [hy]
      · simp [hy]
    · have hfresh : fbPixel m.1 (ox + k) (oy + r) = fbPixel acc.1 (ox + k) (oy + r) := by
        rw [ih1, (col_eq_iff ox (ox + k) k (by omega)).1 rfl]
        simp
      simp only [drawPixel, Bool.or_eq_true, ih2, Bool.and_eq_true, hfresh]
      constructor
      · rintro ((h | ⟨c, hc, h⟩) | h)
        · exact .inl h
        · exact .inr ⟨c, by omega, h⟩
        · exact .inr ⟨k, by omega, h⟩
      · rintro (h | ⟨c, hc, h⟩)
        · exact .inl (.inl h)
        · by_cases hck : c = k
          · subst hck; exact .inr h
          · exact .inl (.inr ⟨c, by omega, h⟩)

/-- The Draw Engine: every pixel is XORed with the sprite seen as a picture, and the flag says whether a 1 bit of the
sprite met a pixel that was set before the draw. -/
theorem drawSprite_spec (s : State) (ox oy n : Nat) (hn : n ≤ 32) :
    (∀ x y, fbPixel (drawSprite s ox oy n).1 x y = (s.pixel x y ^^ s.spriteOn ox oy n x y)) ∧
    ((drawSprite s ox oy n).2 = true ↔
      ∃ r < n, ∃ c < 8, s.spriteBit r c = true ∧ s.pixel (ox + c) (oy + r) = true) := by
  induction n with
  | zero => simp [drawSprite, State.spriteOn, State.pixel]
  | succ n ih =>
    obtain ⟨ih1, ih2⟩ := ih (by omega)
    unfold drawSprite at ih1 ih2 ⊢
    simp only [List.range_succ, List.foldl_append, List.foldl_cons, List.foldl_nil]
    generalize hm : (List.range n).foldl (drawRow s ox oy) (s.fb, false) = m at ih1 ih2
    obtain ⟨h1, h2⟩ := drawRow_cols s ox oy n m 8 (Nat.le_refl 8)
    refine ⟨fun x y => ?_, ?_⟩
    · rw [drawRow, h1, ih1]
      simp only [State.spriteOn, row_eq_iff oy y n (by omega)]
      generalize (y + (32 - oy % 32)) % 32 = r
      generalize (x + (64 - ox % 64)) % 64 = c
      by_cases hr : r = n
      · subst hr; simp
      · simp [hr, show (r < n + 1) ↔ r < n by omega]
    · have hfresh : ∀ c, fbPixel m.1 (ox + c) (oy + n) = s.pixel (ox + c) (oy + n) := fun c => by
        rw [ih1]
        simp only [State.spriteOn]
        rw [(row_eq_iff oy (oy + n) n (by omega)).1 rfl]
        simp
      rw [drawRow, h2, ih2]
      simp only [hfresh]
      constructor
      · rintro (⟨r, hr, h⟩ | h)
        · exact ⟨r, by omega, h⟩
        · exact ⟨n, by omega, h⟩
      · rintro ⟨r, hr, h⟩
        by_cases hrn : r = n
        · subst hrn; exact .inr h
        · exact .inl ⟨r, by omega, h⟩

end Sys2Proof.Machine
end

