-- ==== Sys2Proof/Laws/View.lean ====
section
/-! SUPPORT. One lemma per update on what is observed of the state: the part it writes, and that it writes no other. -/

namespace Sys2Proof.Machine

@[simp] theorem view_setPc (s : State) (t : Word) : view (s.setPc t) = { view s with pc := t } := rfl
@[simp] theorem view_setI (s : State) (w : Word) : view (s.setI w) = { view s with I := w } := rfl
@[simp] theorem view_setSp (s : State) (n : Byte) : view (s.setSp n) = { view s with sp := n } := rfl
@[simp] theorem view_setDt (s : State) (b : Byte) : view (s.setDt b) = { view s with dt := b } := rfl
@[simp] theorem view_setSt (s : State) (b : Byte) : view (s.setSt b) = { view s with st := b } := rfl
@[simp] theorem view_setKeypad (s : State) (m : Word) : view (s.setKeypad m) = { view s with keypad := m } := rfl
@[simp] theorem view_setEnv (s : State) (e : Env) : view (s.setEnv e) = { view s with env := e } := rfl
@[simp] theorem view_setSchedule (s : State) (l : List Event) :
    view (s.setSchedule l) = { view s with env := { s.env with schedule := l } } := rfl
@[simp] theorem view_setStatus (s : State) (x : Status) :
    view (s.setStatus x) = { view s with env := { s.env with status := some x } } := rfl
@[simp] theorem view_setFb (s : State) (f : Vector (BitVec 64) 32) :
    view (s.setFb f) = { view s with pixel := fbPixel f } := rfl
@[simp] theorem view_setMem (s : State) (m : Memory) :
    view (s.setMem m) = { view s with byte := fun a => m.read (a % 4096) } := rfl

@[simp] theorem view_setReg (s : State) (x : Nibble) (b : Byte) :
    view (s.setReg x b) = { view s with regs := fun r => if r = x then b else s.reg r } := by
  apply View.ext <;> first | rfl | exact funext fun r => reg_setReg s x r b

@[simp] theorem view_setRegAndFlag (s : State) (x : Nibble) (b : Byte) (f : Bool) :
    view (s.setRegAndFlag x b f) =
      { view s with regs := fun r => if r = VF then flagByte f else if r = x then b else s.reg r } := by
  apply View.ext <;> first | rfl | exact funext fun r => reg_setRegAndFlag s x r b f

@[simp] theorem view_memWrite (s : State) (a : Nat) (v : Byte) :
    view (s.memWrite a v) = { view s with byte := fun b => if b % 4096 = a % 4096 then v else s.memRead b } := by
  apply View.ext <;> first | rfl | exact funext fun b => memRead_memWrite s a b v

theorem view_push (s : State) (t : Word) (h : s.sp.toNat < 16) :
    view (s.push t) =
      { view s with slot := fun k => if k = s.sp.toNat then some t else s.slot k, sp := s.sp + 1 } := by
  apply View.ext <;> first | rfl | exact funext fun k => slot_push s t k h

end Sys2Proof.Machine
end

