-- ==== Sys2Proof/Laws/Exec.lean ====
section
/-! SUPPORT. Said once for every instruction: which parts of the state it can write when it completes, and what it takes
for it to raise an error or to be refused. -/

set_option Elab.async false -- one proof at a time: in parallel each waits for the same equations in a thread of its own

namespace Sys2Proof.Machine

/-- The instructions that can write a general register: as the destination, as the block loaded, or as the flag. -/
def writesReg (i : Instr) (r : Nibble) : Prop :=
  match i with
  | .ldImm x _ | .addImm x _ | .rnd x _ | .ldReg x _ | .orReg x _ | .andReg x _ | .xorReg x _ => r = x
  | .addReg x _ | .sub x _ | .shr x _ | .subn x _ | .shl x _ => r = x ∨ r = 0xF
  | .drw _ _ _ => r = 0xF
  | .ldVxDt x | .ldVxK x => r = x
  | .loadRegs x => r.toNat ≤ x.toNat
  | .sys _ | .cls | .ret | .jp _ | .call _ | .ldI _ | .jpV0 _ => False
  | .seImm _ _ | .sneImm _ _ | .seReg _ _ _ | .sneReg _ _ _ | .skp _ | .sknp _ => False
  | .ldDtVx _ | .ldStVx _ | .addI _ | .ldF _ | .ldB _ | .storeRegs _ => False

/-- What an instruction that completes leaves alone: each part of the state is as it was unless the instruction is one of
its writers. No instruction writes the keypad, the parameters, the schedule or the status. -/
structure ExecFrame (i : Instr) (s t : State) : Prop where
  regs : ∀ r, ¬writesReg i r → t.reg r = s.reg r
  mem : (∀ x, i ≠ .ldB x ∧ i ≠ .storeRegs x) → t.mem = s.mem
  I : (∀ nnn, i ≠ .ldI nnn) → (∀ x, i ≠ .addI x ∧ i ≠ .ldF x) → t.I = s.I
  stack : (∀ nnn, i ≠ .call nnn) → t.stack = s.stack
  sp : (∀ nnn, i ≠ .call nnn) → i ≠ .ret → t.sp = s.sp
  dt : (∀ x, i ≠ .ldDtVx x) → t.dt = s.dt
  st : (∀ x, i ≠ .ldStVx x) → t.st = s.st
  keypad : t.keypad = s.keypad
  fb : (∀ x y n, i ≠ .drw x y n) → i ≠ .cls → t.fb = s.fb
  draws : (∀ x nn, i ≠ .rnd x nn) → t.env = s.env
  env : t.env = { s.env with draws := t.env.draws }

/-- A meaning that only moves `pc`. -/
theorem ExecFrame.of_setPc {i : Instr} {s : State} (p : Word) : ExecFrame i s (s.setPc p) := by
  constructor <;> intros <;> rfl

/-- A meaning that writes one register and moves `pc`. -/
theorem ExecFrame.of_setReg {i : Instr} {s : State} {x : Nibble} {b : Byte} {p : Word} (h : writesReg i x) :
    ExecFrame i s ((s.setReg x b).setPc p) := by
  constructor
  · intro r hr
    rw [State.setPc_reg, reg_setReg, if_neg]
    rintro rfl; exact hr h
  all_goals intros; rfl

/-- A meaning that writes a register and the flag and moves `pc`. -/
theorem ExecFrame.of_setRegAndFlag {i : Instr} {s : State} {x : Nibble} {b : Byte} {f : Bool} {p : Word}
    (h : writesReg i x) (hf : writesReg i 0xF) : ExecFrame i s ((s.setRegAndFlag x b f).setPc p) := by
  constructor
  · intro r hr
    rw [State.setPc_reg, reg_setRegAndFlag, if_neg, if_neg]
    · rintro rfl; exact hr h
    · rintro rfl; exact hr hf
  all_goals intros; rfl

/-- Every instruction that completes keeps what it does not write. -/
theorem exec_frame {i : Instr} {s t : State} (h : exec i s = .next t) : ExecFrame i s t := by
  cases i with
  | sys nnn => injection h with h; subst h; exact .of_setPc _
  | jp nnn => injection h with h; subst h; exact .of_setPc _
  | jpV0 nnn => injection h with h; subst h; exact .of_setPc _
  | cls =>
    simp only [exec, execCls] at h
    split at h
    · injection h with h; subst h
      constructor <;> intros <;> first | rfl | simp_all
    · cases h
  | ret =>
    simp only [exec, execRet] at h
    split at h
    · cases h
    · split at h
      · injection h with h; subst h
        constructor <;> intros <;> first | rfl | simp_all
      · cases h
  | call nnn =>
    simp only [exec, execCall] at h
    split at h
    · cases h
    · injection h with h; subst h
      constructor <;> intros <;> first | rfl | simp_all
  | seImm x nn | sneImm x nn | seReg x y n | sneReg x y n | skp x | sknp x =>
    simp only [exec, execSeImm, execSneImm, execSeReg, execSneReg, execSkp, execSknp, skipIf_eq] at h
    injection h with h; subst h; exact .of_setPc _
  | ldImm x nn | addImm x nn | ldReg x y | orReg x y | andReg x y | xorReg x y | ldVxDt x =>
    injection h with h; subst h; exact .of_setReg rfl
  | addReg x y | sub x y | shr x y | subn x y | shl x y =>
    injection h with h; subst h; exact .of_setRegAndFlag (.inl rfl) (.inr rfl)
  | ldI nnn =>
    injection h with h; subst h
    constructor <;> intros <;> first | rfl | simp_all
  | addI x =>
    injection h with h; subst h
    constructor <;> intros <;> first | rfl | simp_all
  | ldF x =>
    injection h with h; subst h
    constructor <;> intros <;> first | rfl | simp_all
  | rnd x nn =>
    simp only [exec, execRnd] at h
    split at h
    · injection h with h; subst h
      refine { regs := fun r hr => ?_, mem := fun _ => rfl, I := fun _ _ => rfl, stack := fun _ => rfl,
               sp := fun _ _ => rfl, dt := fun _ => rfl, st := fun _ => rfl, keypad := rfl,
               fb := fun _ _ => rfl, draws := fun h => absurd rfl (h x nn), env := rfl }
      rw [State.setPc_reg, State.setEnv_reg, reg_setReg, if_neg (show ¬r = x from hr)]
    · cases h
  | drw x y n =>
    injection h with h; subst h
    refine { regs := fun r hr => ?_, mem := fun _ => rfl, I := fun _ _ => rfl, stack := fun _ => rfl,
             sp := fun _ _ => rfl, dt := fun _ => rfl, st := fun _ => rfl, keypad := rfl,
             fb := fun h => absurd rfl (h x y n), draws := fun _ => rfl, env := rfl }
    rw [State.setPc_reg, reg_setReg, if_neg (show ¬r = VF from hr), State.setFb_reg]
  | ldVxK x =>
    simp only [exec, execLdVxK] at h
    split at h
    · injection h with h; subst h; exact .of_setPc (s := s) _
    · injection h with h; subst h; exact .of_setReg rfl
  | ldDtVx x =>
    injection h with h; subst h
    constructor <;> intros <;> first | rfl | simp_all
  | ldStVx x =>
    injection h with h; subst h
    constructor <;> intros <;> first | rfl | simp_all
  | ldB x =>
    injection h with h; subst h
    constructor <;> intros <;> first | rfl | simp_all
  | storeRegs x =>
    injection h with h; subst h
    have hx := x.isLt
    rw [(storeFirst_spec s (x.toNat + 1) (by omega)).2.2]
    constructor <;> intros <;> first | rfl | simp_all
  | loadRegs x =>
    injection h with h; subst h
    have hx := x.isLt
    obtain ⟨h1, h2⟩ := loadFirst_spec s (x.toNat + 1) (by omega)
    have hregs : ∀ r, ¬writesReg (.loadRegs x) r → (s.loadFirst (x.toNat + 1)).reg r = s.reg r := fun r hr => by
      rw [h1, if_neg]
      intro hlt; exact hr (by show r.toNat ≤ x.toNat; omega)
    rw [h2] at hregs ⊢
    exact { regs := hregs, mem := fun _ => rfl, I := fun _ _ => rfl, stack := fun _ => rfl,
            sp := fun _ _ => rfl, dt := fun _ => rfl, st := fun _ => rfl, keypad := rfl,
            fb := fun _ _ => rfl, draws := fun _ => rfl, env := rfl }

end Sys2Proof.Machine
end

