-- ==== Sys2Proof/Laws/PerInstr.lean ====
section
/-! SUPPORT. Statements about every instruction as syntax, one lemma per constructor. -/

set_option Elab.async false -- one proof at a time: in parallel each waits for the same equations in a thread of its own

namespace Sys2Proof.Laws.RoundTrip

/-- Decoding the word of a well-formed instruction gives the instruction back. -/
def Statement (i : Instr) : Prop := i.wf = true → decode (encode i) = .ok i

theorem sys (nnn : Addr) : Statement (.sys nnn) := by
  intro h
  simp only [Instr.wf, Bool.and_eq_true, bne_iff_ne] at h
  simp [decode, encode, decode0, h.1, h.2]

theorem cls : Statement .cls := fun _ => rfl

theorem ret : Statement .ret := fun _ => rfl

theorem jp (nnn : Addr) : Statement (.jp nnn) := by
  intro _; simp [decode, encode]

theorem call (nnn : Addr) : Statement (.call nnn) := by
  intro _; simp [decode, encode]

theorem seImm (x : Nibble) (nn : Byte) : Statement (.seImm x nn) := by
  intro _; simp [decode, encode]

theorem sneImm (x : Nibble) (nn : Byte) : Statement (.sneImm x nn) := by
  intro _; simp [decode, encode]

theorem seReg (x y ignored : Nibble) : Statement (.seReg x y ignored) := by
  intro _; simp [decode, encode]

theorem ldImm (x : Nibble) (nn : Byte) : Statement (.ldImm x nn) := by
  intro _; simp [decode, encode]

theorem addImm (x : Nibble) (nn : Byte) : Statement (.addImm x nn) := by
  intro _; simp [decode, encode]

theorem ldReg (x y : Nibble) : Statement (.ldReg x y) := by
  intro _; simp [decode, encode, decode8]

theorem orReg (x y : Nibble) : Statement (.orReg x y) := by
  intro _; simp [decode, encode, decode8]

theorem andReg (x y : Nibble) : Statement (.andReg x y) := by
  intro _; simp [decode, encode, decode8]

theorem xorReg (x y : Nibble) : Statement (.xorReg x y) := by
  intro _; simp [decode, encode, decode8]

theorem addReg (x y : Nibble) : Statement (.addReg x y) := by
  intro _; simp [decode, encode, decode8]

theorem sub (x y : Nibble) : Statement (.sub x y) := by
  intro _; simp [decode, encode, decode8]

theorem shr (x y : Nibble) : Statement (.shr x y) := by
  intro _; simp [decode, encode, decode8]

theorem subn (x y : Nibble) : Statement (.subn x y) := by
  intro _; simp [decode, encode, decode8]

theorem shl (x y : Nibble) : Statement (.shl x y) := by
  intro _; simp [decode, encode, decode8]

theorem sneReg (x y ignored : Nibble) : Statement (.sneReg x y ignored) := by
  intro _; simp [decode, encode]

theorem ldI (nnn : Addr) : Statement (.ldI nnn) := by
  intro _; simp [decode, encode]

theorem jpV0 (nnn : Addr) : Statement (.jpV0 nnn) := by
  intro _; simp [decode, encode]

theorem rnd (x : Nibble) (nn : Byte) : Statement (.rnd x nn) := by
  intro _; simp [decode, encode]

theorem drw (x y n : Nibble) : Statement (.drw x y n) := by
  intro _; simp [decode, encode]

theorem skp (x : Nibble) : Statement (.skp x) := by
  intro _; simp [decode, encode, decodeE]

theorem sknp (x : Nibble) : Statement (.sknp x) := by
  intro _; simp [decode, encode, decodeE]

theorem ldVxDt (x : Nibble) : Statement (.ldVxDt x) := by
  intro _; simp [decode, encode, decodeF]

theorem ldVxK (x : Nibble) : Statement (.ldVxK x) := by
  intro _; simp [decode, encode, decodeF]

theorem ldDtVx (x : Nibble) : Statement (.ldDtVx x) := by
  intro _; simp [decode, encode, decodeF]

theorem ldStVx (x : Nibble) : Statement (.ldStVx x) := by
  intro _; simp [decode, encode, decodeF]

theorem addI (x : Nibble) : Statement (.addI x) := by
  intro _; simp [decode, encode, decodeF]

theorem ldF (x : Nibble) : Statement (.ldF x) := by
  intro _; simp [decode, encode, decodeF]

theorem ldB (x : Nibble) : Statement (.ldB x) := by
  intro _; simp [decode, encode, decodeF]

theorem storeRegs (x : Nibble) : Statement (.storeRegs x) := by
  intro _; simp [decode, encode, decodeF]

theorem loadRegs (x : Nibble) : Statement (.loadRegs x) := by
  intro _; simp [decode, encode, decodeF]

end Sys2Proof.Laws.RoundTrip
end

