-- ==== Sys2Proof/Laws/Run.lean ====
section
/-! SUPPORT. Runs of the machine, one step at a time, in terms of `step`. -/

namespace Sys2Proof.Machine

/-- A run of no steps. -/
theorem core_run_zero (s : State) : Host.Core.run Sys2Proof.core 0 s = .next s := rfl

/-- A run goes on from the next state of its first step, and stops where that step stops. -/
theorem core_run_succ (k : Nat) (s : State) :
    Host.Core.run Sys2Proof.core (k + 1) s =
      (match step s with
        | .next s' => Host.Core.run Sys2Proof.core k s'
        | .fault r => .fault r
        | .refused r => .refused r : Host.Outcome State Fault Refusal) := by
  simp only [Host.Core.run]
  rw [show Sys2Proof.core.step s = step s from rfl]
  cases step s <;> rfl

end Sys2Proof.Machine
end

