-- ==== Sys2Proof/Tests/Slice0.lean ====
section
/-! SUPPORT. Tests of one step each on small states, and a witness for the hypotheses of every statement. Expected values
are those of spec/95_test_vectors.md (the vector is named) or worked out by hand from the rule named; none was read off the
model. -/

namespace Sys2Proof.Tests

open Sys2Proof Sys2Proof.Machine

/-- The reset state changed by `f`, with the word `w` placed where the next cycle fetches. -/
def start (w : Word) (f : State → State) : State := (f State.reset).placeWord w

/-- What `q` reads from a next state; none where the outcome is no next state. -/
def after {α : Type} (o : Host.Outcome State Fault Refusal) (q : State → α) : Option α :=
  match o with
  | .next t => some (q t)
  | .fault _ => none
  | .refused _ => none

/-- The fault of an outcome, if it is one. -/
def faultOf (o : Host.Outcome State Fault Refusal) : Option Fault :=
  match o with
  | .fault f => some f
  | .next _ => none
  | .refused _ => none

/-- The parameters of a state changed. -/
def withConfig (s : State) (c : Config) : State := s.setEnv { s.env with config := c }

/-- `SHIFT_SOURCE = Y`, the other parameters at their defaults. -/
def shiftY : Config := { Config.specDefault with shiftSource := .y }

/-- `ADMIT_CLS_RND = false`. -/
def noClsRnd : Config := { Config.specDefault with admitClsRnd := false }

/-- `STRICT_EVEN_PC = true`. -/
def strictEven : Config := { Config.specDefault with strictEvenPc := true }

/-- `DRIVER_ON_ERROR = skip`. -/
def skipErrors : Config := { Config.specDefault with driverOnError := .skip }

/-- A state with `n` stack slots in use, slot `k` replaced. -/
def withStack (s : State) (n : Byte) (k : Nat) (h : k < 16) (v : Word) : State :=
  { s with sp := n, stack := s.stack.set k v h }

/-! ## Decoding: words written out bit by bit from the patterns of 30_encoding.md R55 -/

theorem test_decode_sys :
    decode 0b0000001001010000 = .ok (.sys 0x250) ∧ encode (.sys 0x250) = 0b0000001001010000 := by decide
theorem test_decode_cls :
    decode 0b0000000011100000 = .ok (.cls) ∧ encode (.cls) = 0b0000000011100000 := by decide
theorem test_decode_ret :
    decode 0b0000000011101110 = .ok (.ret) ∧ encode (.ret) = 0b0000000011101110 := by decide
theorem test_decode_jp :
    decode 0b0001001000110100 = .ok (.jp 0x234) ∧ encode (.jp 0x234) = 0b0001001000110100 := by decide
theorem test_decode_call :
    decode 0b0010001100000000 = .ok (.call 0x300) ∧ encode (.call 0x300) = 0b0010001100000000 := by decide
theorem test_decode_seImm :
    decode 0b0011101000000101 = .ok (.seImm 0xA 0x05) ∧ encode (.seImm 0xA 0x05) = 0b0011101000000101 := by decide
theorem test_decode_sneImm :
    decode 0b0100101000000101 = .ok (.sneImm 0xA 0x05) ∧ encode (.sneImm 0xA 0x05) = 0b0100101000000101 := by decide
theorem test_decode_seReg :
    decode 0b0101000100101111 = .ok (.seReg 1 2 0xF) ∧ encode (.seReg 1 2 0xF) = 0b0101000100101111 := by decide
theorem test_decode_ldImm :
    decode 0b0110101000101111 = .ok (.ldImm 0xA 0x2F) ∧ encode (.ldImm 0xA 0x2F) = 0b0110101000101111 := by decide
theorem test_decode_addImm :
    decode 0b0111001111111111 = .ok (.addImm 3 0xFF) ∧ encode (.addImm 3 0xFF) = 0b0111001111111111 := by decide
theorem test_decode_ldReg :
    decode 0b1000000100100000 = .ok (.ldReg 1 2) ∧ encode (.ldReg 1 2) = 0b1000000100100000 := by decide
theorem test_decode_orReg :
    decode 0b1000101010110001 = .ok (.orReg 0xA 0xB) ∧ encode (.orReg 0xA 0xB) = 0b1000101010110001 := by decide
theorem test_decode_andReg :
    decode 0b1000101010110010 = .ok (.andReg 0xA 0xB) ∧ encode (.andReg 0xA 0xB) = 0b1000101010110010 := by decide
theorem test_decode_xorReg :
    decode 0b1000101010110011 = .ok (.xorReg 0xA 0xB) ∧ encode (.xorReg 0xA 0xB) = 0b1000101010110011 := by decide
theorem test_decode_addReg :
    decode 0b1000000100100100 = .ok (.addReg 1 2) ∧ encode (.addReg 1 2) = 0b1000000100100100 := by decide
theorem test_decode_sub :
    decode 0b1000000100100101 = .ok (.sub 1 2) ∧ encode (.sub 1 2) = 0b1000000100100101 := by decide
theorem test_decode_shr :
    decode 0b1000000100100110 = .ok (.shr 1 2) ∧ encode (.shr 1 2) = 0b1000000100100110 := by decide
theorem test_decode_subn :
    decode 0b1000000100100111 = .ok (.subn 1 2) ∧ encode (.subn 1 2) = 0b1000000100100111 := by decide
theorem test_decode_shl :
    decode 0b1000000100101110 = .ok (.shl 1 2) ∧ encode (.shl 1 2) = 0b1000000100101110 := by decide
theorem test_decode_sneReg :
    decode 0b1001000100101011 = .ok (.sneReg 1 2 0xB) ∧ encode (.sneReg 1 2 0xB) = 0b1001000100101011 := by decide
theorem test_decode_ldI :
    decode 0b1010001011110000 = .ok (.ldI 0x2F0) ∧ encode (.ldI 0x2F0) = 0b1010001011110000 := by decide
theorem test_decode_jpV0 :
    decode 0b1011001100000000 = .ok (.jpV0 0x300) ∧ encode (.jpV0 0x300) = 0b1011001100000000 := by decide
theorem test_decode_rnd :
    decode 0b1100001100001111 = .ok (.rnd 3 0x0F) ∧ encode (.rnd 3 0x0F) = 0b1100001100001111 := by decide
theorem test_decode_drw :
    decode 0b1101000100100101 = .ok (.drw 1 2 5) ∧ encode (.drw 1 2 5) = 0b1101000100100101 := by decide
theorem test_decode_skp :
    decode 0b1110001110011110 = .ok (.skp 3) ∧ encode (.skp 3) = 0b1110001110011110 := by decide
theorem test_decode_sknp :
    decode 0b1110001110100001 = .ok (.sknp 3) ∧ encode (.sknp 3) = 0b1110001110100001 := by decide
theorem test_decode_ldVxDt :
    decode 0b1111010100000111 = .ok (.ldVxDt 5) ∧ encode (.ldVxDt 5) = 0b1111010100000111 := by decide
theorem test_decode_ldVxK :
    decode 0b1111001000001010 = .ok (.ldVxK 2) ∧ encode (.ldVxK 2) = 0b1111001000001010 := by decide
theorem test_decode_ldDtVx :
    decode 0b1111010100010101 = .ok (.ldDtVx 5) ∧ encode (.ldDtVx 5) = 0b1111010100010101 := by decide
theorem test_decode_ldStVx :
    decode 0b1111011000011000 = .ok (.ldStVx 6) ∧ encode (.ldStVx 6) = 0b1111011000011000 := by decide
theorem test_decode_addI :
    decode 0b1111001000011110 = .ok (.addI 2) ∧ encode (.addI 2) = 0b1111001000011110 := by decide
theorem test_decode_ldF :
    decode 0b1111001100101001 = .ok (.ldF 3) ∧ encode (.ldF 3) = 0b1111001100101001 := by decide
theorem test_decode_ldB :
    decode 0b1111010000110011 = .ok (.ldB 4) ∧ encode (.ldB 4) = 0b1111010000110011 := by decide
theorem test_decode_storeRegs :
    decode 0b1111001001010101 = .ok (.storeRegs 2) ∧ encode (.storeRegs 2) = 0b1111001001010101 := by decide
theorem test_decode_loadRegs :
    decode 0b1111000101100101 = .ok (.loadRegs 1) ∧ encode (.loadRegs 1) = 0b1111000101100101 := by decide

/-- The field extraction check of 95_test_vectors.md 2.7. -/
theorem test_fields_D7A5 : classOf 0xD7A5 = 0xD ∧ xOf 0xD7A5 = 7 ∧ yOf 0xD7A5 = 0xA ∧ nOf 0xD7A5 = 5 ∧ nnOf 0xD7A5 = 0xA5 ∧
    nnnOf 0xD7A5 = 0x7A5 := by decide

/-- E1, E3, E6: illegal words are rejected by name. -/
theorem test_decode_illegal : decode 0x8128 = .error (.class8 8) ∧ decode 0xE19F = .error (.classE 0x9F) ∧
    decode 0xF156 = .error (.classF 0x56) := by decide

/-- E9, E10, E12: only 00E0 and 00EE are taken out of SYS. -/
theorem test_decode_sys_neighbours : decode 0x00E1 = .ok (.sys 0x0E1) ∧ decode 0x00EF = .ok (.sys 0x0EF) ∧
    decode 0x0000 = .ok (.sys 0) := by decide

/-- Decoding from bytes: high byte first, the rest kept, one byte is no instruction (R33, R50). -/
theorem test_decodeBytes : decodeBytes [0x12, 0x34, 0x56] = .ok (.jp 0x234, [0x56]) ∧
    decodeBytes [0x12] = .error .truncated := by decide

theorem test_decodeTableWord : decodeTableWord 16 0xA2F0 = some (.ldI 0x2F0) ∧ decodeTableWord 16 0x8128 = none := by decide

/-! ## WellFormed: the ill-formed terms, each refused (R56) -/

theorem test_wf_refuses_sys_of_cls : Instr.wf (.sys 0x0E0) = false := by decide
theorem test_wf_refuses_sys_of_ret : Instr.wf (.sys 0x0EE) = false := by decide
theorem test_wf_admits_sys_neighbour : Instr.wf (.sys 0x0EF) = true := by decide

/-! ## One step per test -/

/-- A1. -/
theorem test_ldImm :
    after (step (start 0x6A2F id))
      (fun t => (t.reg 0xA, t.pc)) = some (0x2F, 0x0202) := by decide

/-- C19, an odd `pc` at the top of memory. -/
theorem test_ldImm_wraps_fetch :
    after (step (start 0x6005 (fun s => s.setPc 0x0FFF)))
      (fun t => (t.reg 0, t.pc)) = some (0x05, 0x1001) := by decide

/-- A3. -/
theorem test_addImm_wraps :
    after (step (start 0x73FF (fun s => (s.setReg 3 2).setReg 0xF 1)))
      (fun t => (t.reg 3, t.reg 0xF, t.pc)) = some (1, 1, 0x0202) := by decide

/-- A5. -/
theorem test_addImm_VF :
    after (step (start 0x7F02 (fun s => s.setReg 0xF 0xFF)))
      (fun t => (t.reg 0xF, t.pc)) = some (1, 0x0202) := by decide

/-- A6. -/
theorem test_ldReg :
    after (step (start 0x8120 (fun s => s.setReg 2 0x77)))
      (fun t => (t.reg 1, t.reg 2)) = some (0x77, 0x77) := by decide

/-- A7. -/
theorem test_orReg :
    after (step (start 0x8AB1 (fun s => ((s.setReg 0xA 0x0F).setReg 0xB 0xF0).setReg 0xF 1)))
      (fun t => (t.reg 0xA, t.reg 0xF)) = some (0xFF, 1) := by decide

/-- A8. -/
theorem test_andReg :
    after (step (start 0x8AB2 (fun s => ((s.setReg 0xA 0x3C).setReg 0xB 0x0F).setReg 0xF 1)))
      (fun t => (t.reg 0xA, t.reg 0xF)) = some (0x0C, 1) := by decide

/-- A9. -/
theorem test_xorReg :
    after (step (start 0x8AB3 (fun s => ((s.setReg 0xA 0xFF).setReg 0xB 0x0F).setReg 0xF 1)))
      (fun t => (t.reg 0xA, t.reg 0xF)) = some (0xF0, 1) := by decide

/-- A12. -/
theorem test_addReg_carry :
    after (step (start 0x8124 (fun s => (s.setReg 1 0xFF).setReg 2 1)))
      (fun t => (t.reg 1, t.reg 0xF)) = some (0, 1) := by decide

/-- A15. -/
theorem test_addReg_flag_wins :
    after (step (start 0x8F14 (fun s => (s.setReg 0xF 0xF0).setReg 1 0x20)))
      (fun t => (t.reg 0xF, t.reg 1)) = some (1, 0x20) := by decide

/-- A19. -/
theorem test_sub_equal :
    after (step (start 0x8125 (fun s => ((s.setReg 1 7).setReg 2 7).setReg 0xF 1)))
      (fun t => (t.reg 1, t.reg 0xF)) = some (0, 0) := by decide

/-- A20. -/
theorem test_sub_borrow :
    after (step (start 0x8125 (fun s => ((s.setReg 1 3).setReg 2 5).setReg 0xF 1)))
      (fun t => (t.reg 1, t.reg 0xF)) = some (0xFE, 0) := by decide

/-- A23. -/
theorem test_subn :
    after (step (start 0x8127 (fun s => (s.setReg 1 3).setReg 2 5)))
      (fun t => (t.reg 1, t.reg 2, t.reg 0xF)) = some (2, 5, 1) := by decide

/-- A25. -/
theorem test_subn_borrow :
    after (step (start 0x8127 (fun s => ((s.setReg 1 5).setReg 2 3).setReg 0xF 1)))
      (fun t => (t.reg 1, t.reg 0xF)) = some (0xFE, 0) := by decide

/-- A26. -/
theorem test_shr_x :
    after (step (start 0x8126 (fun s => (s.setReg 1 3).setReg 2 0xF0)))
      (fun t => (t.reg 1, t.reg 2, t.reg 0xF)) = some (1, 0xF0, 1) := by decide

/-- A27. -/
theorem test_shr_y :
    after (step (start 0x8126 (fun s => withConfig ((s.setReg 1 3).setReg 2 0xF0) shiftY)))
      (fun t => (t.reg 1, t.reg 2, t.reg 0xF)) = some (0x78, 0xF0, 0) := by decide

/-- A31. -/
theorem test_shl_x :
    after (step (start 0x812E (fun s => (s.setReg 1 0x81).setReg 2 0x40)))
      (fun t => (t.reg 1, t.reg 0xF)) = some (2, 1) := by decide

/-- A32. -/
theorem test_shl_y :
    after (step (start 0x812E (fun s => withConfig ((s.setReg 1 0x81).setReg 2 0x40) shiftY)))
      (fun t => (t.reg 1, t.reg 2, t.reg 0xF)) = some (0x80, 0x40, 0) := by decide

/-- C17. -/
theorem test_seImm_taken_wraps :
    after (step (start 0x3000 (fun s => s.setPc 0xFFFE)))
      (fun t => t.pc) = some 0x0002 := by decide

/-- C2. -/
theorem test_seImm_not_taken :
    after (step (start 0x3A05 (fun s => s.setReg 0xA 6)))
      (fun t => t.pc) = some 0x0202 := by decide

/-- C3. -/
theorem test_sneImm_taken :
    after (step (start 0x4A05 (fun s => s.setReg 0xA 6)))
      (fun t => t.pc) = some 0x0204 := by decide

/-- C4. -/
theorem test_sneImm_not_taken :
    after (step (start 0x4A05 (fun s => s.setReg 0xA 5)))
      (fun t => t.pc) = some 0x0202 := by decide

/-- C6. -/
theorem test_seReg_ignores_nibble :
    after (step (start 0x512F (fun s => ((s.setPc 0x300).setReg 1 9).setReg 2 9)))
      (fun t => (t.pc, t.env.status)) = some (0x0304, some .ok) := by decide

/-- C7. -/
theorem test_seReg_not_taken :
    after (step (start 0x5120 (fun s => ((s.setPc 0x300).setReg 1 9).setReg 2 8)))
      (fun t => t.pc) = some 0x0302 := by decide

/-- C9. -/
theorem test_sneReg_ignores_nibble :
    after (step (start 0x912B (fun s => ((s.setPc 0x300).setReg 1 9).setReg 2 8)))
      (fun t => t.pc) = some 0x0304 := by decide

/-- C10. -/
theorem test_sneReg_not_taken :
    after (step (start 0x9120 (fun s => ((s.setPc 0x300).setReg 1 9).setReg 2 9)))
      (fun t => t.pc) = some 0x0302 := by decide

/-- C14. -/
theorem test_skp_low_nibble :
    after (step (start 0xE39E (fun s => ((s.setPc 0x210).setReg 3 0x1A).setKeypad 0x0400)))
      (fun t => t.pc) = some 0x0214 := by decide

/-- C13. -/
theorem test_skp_other_keys :
    after (step (start 0xE39E (fun s => ((s.setPc 0x210).setReg 3 7).setKeypad 0xFF7F)))
      (fun t => t.pc) = some 0x0212 := by decide

/-- C15. -/
theorem test_sknp_down :
    after (step (start 0xE3A1 (fun s => ((s.setPc 0x210).setReg 3 7).setKeypad 0x0080)))
      (fun t => t.pc) = some 0x0212 := by decide

/-- C16. -/
theorem test_sknp_up :
    after (step (start 0xE3A1 (fun s => (s.setPc 0x210).setReg 3 7)))
      (fun t => t.pc) = some 0x0214 := by decide

/-- C22. -/
theorem test_jp_odd :
    after (step (start 0x1301 id))
      (fun t => t.pc) = some 0x0301 := by decide

/-- C24. -/
theorem test_jpV0_not_masked :
    after (step (start 0xBFFF (fun s => s.setReg 0 0xFF)))
      (fun t => t.pc) = some 0x10FE := by decide

/-- C25. -/
theorem test_sys :
    after (step (start 0x0250 id))
      (fun t => (t.pc, t.sp)) = some (0x0250, 0) := by decide

/-- C27. -/
theorem test_call :
    after (step (start 0x2300 (fun s => s.setPc 0x204)))
      (fun t => (t.slot 0, t.sp, t.pc)) = some (some 0x0206, 1, 0x0300) := by decide

/-- C28. -/
theorem test_call_sixteenth :
    after (step (start 0x2300 (fun s => s.setSp 15)))
      (fun t => (t.slot 15, t.sp, t.pc)) = some (some 0x0202, 16, 0x0300) := by decide

/-- C30. -/
theorem test_ret :
    after (step (start 0x00EE (fun s => (withStack s 1 0 (by decide) 0x0206).setPc 0x300)))
      (fun t => (t.sp, t.pc, t.slot 0)) = some (0, 0x0206, some 0x0206) := by decide

/-- C32. -/
theorem test_ret_full :
    after (step (start 0x00EE (fun s => (withStack s 16 15 (by decide) 0xABCD).setPc 0x300)))
      (fun t => (t.sp, t.pc)) = some (15, 0xABCD) := by decide

/-- M1. -/
theorem test_ldI :
    after (step (start 0xA2F0 id))
      (fun t => (t.I, t.pc)) = some (0x02F0, 0x0202) := by decide

/-- M4. -/
theorem test_addI_wraps :
    after (step (start 0xF21E (fun s => (s.setI 0x0FFF).setReg 2 0xFF)))
      (fun t => (t.I, t.reg 0xF)) = some (0x00FE, 0) := by decide

/-- M6. -/
theorem test_ldF_low_nibble :
    after (step (start 0xF329 (fun s => s.setReg 3 0x1A)))
      (fun t => t.I) = some 0x0082 := by decide

/-- M7. -/
theorem test_ldF_last :
    after (step (start 0xF329 (fun s => s.setReg 3 0xFF)))
      (fun t => t.I) = some 0x009B := by decide

/-- M9. -/
theorem test_ldB_205 :
    after (step (start 0xF433 (fun s => (s.setReg 4 205).setI 0x300)))
      (fun t => [t.memRead 0x300, t.memRead 0x301, t.memRead 0x302]) = some [2, 0, 5] := by decide

/-- M13. -/
theorem test_ldB_wraps :
    after (step (start 0xF433 (fun s => (s.setReg 4 123).setI 0xFFE)))
      (fun t => [t.memRead 0xFFE, t.memRead 0xFFF, t.memRead 0]) = some [1, 2, 3] := by decide

/-- M14. -/
theorem test_storeRegs :
    after (step (start 0xF255 (fun s => ((((s.setI 0x400).setReg 0 0x11).setReg 1 0x22).setReg 2 0x33).setReg 3 0x44)))
      (fun t => ([t.memRead 0x400, t.memRead 0x401, t.memRead 0x402, t.memRead 0x403], t.I)) = some ([0x11, 0x22, 0x33, 0], 0x400) := by decide

/-- M16. -/
theorem test_storeRegs_wraps :
    after (step (start 0xF355 (fun s => ((((s.setI 0xFFE).setReg 0 0xA0).setReg 1 0xA1).setReg 2 0xA2).setReg 3 0xA3)))
      (fun t => [t.memRead 0xFFE, t.memRead 0xFFF, t.memRead 0, t.memRead 1]) = some [0xA0, 0xA1, 0xA2, 0xA3] := by decide

/-- M19. -/
theorem test_loadRegs_wraps :
    after (step (start 0xF265 (fun s => (((s.setI 0xFFF).memWrite 0xFFF 0x0F).memWrite 0 1).memWrite 1 2)))
      (fun t => (t.reg 0, t.reg 1, t.reg 2, t.I)) = some (0x0F, 1, 2, 0xFFF) := by decide

/-- M21, the glyph bytes. -/
theorem test_loadRegs_font :
    after (step (start 0xF465 (fun s => s.setI 0x082)))
      (fun t => [t.reg 0, t.reg 1, t.reg 2, t.reg 3, t.reg 4]) = some [0xF0, 0x90, 0xF0, 0x90, 0x90] := by decide

/-- T1. -/
theorem test_ldVxDt :
    after (step (start 0xF507 (fun s => s.setDt 0x3C)))
      (fun t => (t.reg 5, t.dt)) = some (0x3C, 0x3C) := by decide

/-- T3. -/
theorem test_ldDtVx :
    after (step (start 0xF515 (fun s => s.setDt 9)))
      (fun t => t.dt) = some 0 := by decide

/-- T4. -/
theorem test_ldStVx :
    after (step (start 0xF618 (fun s => s.setReg 6 0x0A)))
      (fun t => (t.st, t.dt)) = some (0x0A, 0) := by decide

/-- T10. -/
theorem test_ldVxK_rearms_through_zero :
    after (step (start 0xF20A (fun s => s.setPc 0)))
      (fun t => (t.pc, t.env.status)) = some (0, some .ok) := by decide

/-- T6. -/
theorem test_ldVxK_lowest :
    after (step (start 0xF20A (fun s => (s.setPc 0x220).setKeypad 0x0048)))
      (fun t => (t.reg 2, t.pc)) = some (3, 0x0222) := by decide

/-- D5. -/
theorem test_drw_wraps :
    after (step (start 0xD121 (fun s => (((s.setI 0x300).memWrite 0x300 0x81).setReg 1 255).setReg 2 255)))
      (fun t => (t.pixel 63 31, t.pixel 6 31, t.pixel 0 31, t.reg 0xF)) = some (true, true, false, 0) := by decide

/-- D6. -/
theorem test_drw_collides_before_xor :
    after (step (start 0xD121 (fun s => (((s.setI 0x300).memWrite 0x300 0xC0).setFb (xorPixel (xorPixel s.fb 1 0 true) 5 0 true)))))
      (fun t => (t.pixel 0 0, t.pixel 1 0, t.pixel 5 0, t.reg 0xF)) = some (true, false, true, 1) := by decide

/-- X1. -/
theorem test_cls :
    after (step (start 0x00E0 (fun s => (s.setFb (Vector.replicate 32 (BitVec.allOnes 64))).setReg 0xF 1)))
      (fun t => (t.fb, t.reg 0xF, t.pc)) = some (Vector.replicate 32 0, 1, 0x0202) := by decide

/-- X4, the draw-independent case: under mask 0 the byte is 0 whatever is drawn. -/
theorem test_rnd_mask_zero :
    after (step (start 0xC300 (fun s => s.setReg 3 0x11))) (fun t => (t.reg 3, t.pc)) = some (0, 0x0202) := by
  have h : Config.draw8 0 &&& 0 = 0 := BitVec.and_zero
  have e : after (step (start 0xC300 (fun s => s.setReg 3 0x11))) (fun t => (t.reg 3, t.pc)) =
      some (Config.draw8 0 &&& 0, 0x0202) := rfl
  rw [e, h]

/-- X3: where the byte drawn is 0xA7, mask 0x0F leaves 0x07. -/
theorem test_rnd_mask (h : Config.draw8 0 = 0xA7) :
    after (step (start 0xC30F (fun s => s.setReg 3 0x11))) (fun t => t.reg 3) = some 0x07 := by
  have e : after (step (start 0xC30F (fun s => s.setReg 3 0x11))) (fun t => t.reg 3) = some (Config.draw8 0 &&& 0x0F) := rfl
  rw [e, h]; rfl

/-! ## Errors, the driver's policy, ticks, the keypad, the load -/

/-- C29: the seventeenth call. -/
theorem test_stackOverflow :
    faultOf (step (start 0x2300 (fun s => s.setSp 16))) = some (.stackOverflow 0x2300 0x0200) := by decide

/-- C31: return with an empty stack. -/
theorem test_stackUnderflow :
    faultOf (step (start 0x00EE (fun s => s.setPc 0x300))) = some (.stackUnderflow 0x00EE 0x0300) := by decide

/-- E1, X2, X6: the fallback, and CLS and RND where they are not admitted. -/
theorem test_unimplemented :
    faultOf (step (start 0x8128 id)) = some (.unimplementedOpcode 0x8128 0x0200) ∧
    faultOf (step (start 0x00E0 (fun s => withConfig s noClsRnd))) = some (.unimplementedOpcode 0x00E0 0x0200) ∧
    faultOf (step (start 0xC30F (fun s => withConfig s noClsRnd))) = some (.unimplementedOpcode 0xC30F 0x0200) := by decide

/-- P5 (a): a driver that skips adds 2 to `pc` and goes on. -/
theorem test_skip_policy :
    after (step (start 0x8128 (fun s => (withConfig s skipErrors).setPc 0x0202))) (fun t => (t.pc, t.env.status)) =
      some (0x0204, some (.error (.unimplementedOpcode 0x8128 0x0202))) := by decide

/-- R22: with STRICT_EVEN_PC a cycle at an odd `pc` is refused. -/
theorem test_strict_odd_pc :
    step (start 0x6005 (fun s => (withConfig s strictEven).setPc 0x0FFF)) = .refused .oddPc := rfl

/-- K1, K2: a tick decrements both timers and floors at 0. -/
theorem test_tick :
    after (step (((State.reset.setDt 3).setSt 1).setSchedule [.tick])) (fun t => (t.dt, t.st, t.pc)) = some (2, 0, 0x0200) ∧
    after (step (State.reset.setSchedule [.tick])) (fun t => (t.dt, t.st)) = some (0, 0) := by decide

/-- R175: a keypad update. -/
theorem test_keys :
    after (step (State.reset.setSchedule [.keys 0x0028, .cycle])) (fun t => (t.keypad, t.pc, t.env.schedule)) =
      some (0x0028, 0x0200, [.cycle]) := by decide

/-- R193: the image from 0x200, high byte of a word first (P5 (a)'s image). -/
theorem test_boot :
    after (boot [0x60, 0x05, 0x81, 0x28, 0x12, 0x04])
      (fun t => (t.fetchWord, t.memRead 0x203, t.memRead 0x206, t.memRead 0x082)) = some (0x6005, 0x28, 0, 0xF0) := by decide

/-- R160: the codes of the statuses. -/
theorem test_codes : Status.ok.code = 0 ∧ (Status.error (.unimplementedOpcode 0 0)).code = 1 ∧
    (Status.error (.stackOverflow 0 0)).code = 2 ∧ (Status.error (.stackUnderflow 0 0)).code = 3 := by decide

/-- R177: the renderer's grid, row by row: 32 rows of 64 pixels, the pixel of column 5 and row 2 in its place. -/
theorem test_grid :
    ((State.reset.setFb (xorPixel State.reset.fb 5 2 true)).grid.map fun row => row.length) = List.replicate 32 64 ∧
    ((State.reset.setFb (xorPixel State.reset.fb 5 2 true)).grid[2]?.bind fun row => row[5]?) = some true := by decide

/-- A word equal to the reset contents is not listed, one that differs is, in rising order. -/
theorem test_memory_canonical :
    ((State.reset.memWrite 0x300 7).memWrite 0x200 1).mem = [(0x200, 1), (0x300, 7)] ∧
    ((State.reset.memWrite 0x300 7).memWrite 0x300 0).mem = [] ∧ (State.reset.memWrite 0x050 0xF0).mem = [] := by decide

/-! ## Witnesses: the hypotheses of every statement that has some are met together, each clause at a boundary -/

theorem witness_ShiftsUseTheConfiguredSource :
    (State.reset.env.config.shiftSource = .x ∧ (0 : Byte) = State.reset.reg 1) ∧
    ((withConfig State.reset shiftY).env.config.shiftSource = .y ∧ (0 : Byte) = (withConfig State.reset shiftY).reg 2) := by
  decide

theorem witness_JumpsSetTheProgramCounter : (0x0EF : Addr) ≠ 0x0E0 ∧ (0x0EF : Addr) ≠ 0x0EE := by decide

theorem witness_CallPushesTheReturnAddress :
    (State.reset.setSp 15).sp.toNat < 16 ∧ (State.reset.setSp 16).sp.toNat ≥ 16 := by decide

/-- A stack of depth 1 and a full one for the pop, an empty one for the underflow. -/
theorem witness_ReturnPopsTheNewestSlot :
    ((withStack State.reset 1 0 (by decide) 0x0206).sp.toNat ≤ 16 ∧ (withStack State.reset 1 0 (by decide) 0x0206).sp ≠ 0 ∧
      (withStack State.reset 1 0 (by decide) 0x0206).slot 0 = some 0x0206) ∧
    ((withStack State.reset 16 15 (by decide) 0xABCD).sp.toNat ≤ 16 ∧ (withStack State.reset 16 15 (by decide) 0xABCD).sp ≠ 0 ∧
      (withStack State.reset 16 15 (by decide) 0xABCD).slot 15 = some 0xABCD) ∧
    (State.reset.sp.toNat ≤ 16 ∧ State.reset.sp = 0) := by decide

/-- The last register of the block, and an address next to the block's end, with `I` at the top of memory. -/
theorem witness_BlockStoreWritesExactlyItsBytes :
    (3 : Nibble).toNat ≤ (3 : Nibble).toNat ∧
    (∀ k ≤ (3 : Nibble).toNat, 2 % 4096 ≠ ((State.reset.setI 0xFFE).I.toNat + k) % 4096) := by decide

theorem witness_KeyWaitTakesTheLowestKey : State.reset.keypad = 0 ∧ (State.reset.setKeypad 0x8000).keypad ≠ 0 := by decide

/-- The last row and column of the tallest sprite, and a pixel outside an 8 by 1 sprite at the origin. -/
theorem witness_DrawXorsTheSpriteAndReportsCollision :
    (14 < (0xF : Nibble).toNat ∧ 7 < 8) ∧
    (∀ r < (1 : Nibble).toNat, ∀ c < 8,
      ¬(8 % 64 = ((State.reset.reg 0).toNat + c) % 64 ∧ 0 % 32 = ((State.reset.reg 1).toNat + r) % 32)) := by decide

/-- S5: glyph 0 drawn twice at (0, 0). -/
theorem witness_DrawTwiceRestoresTheScreen :
    ∃ s t u : State, exec (.drw 1 2 5) s = .next t ∧ exec (.drw 1 2 5) t = .next u ∧ t.reg 1 = s.reg 1 ∧ t.reg 2 = s.reg 2 :=
  ⟨State.reset.setI 0x050, _, _, rfl, rfl, by decide, by decide⟩

/-- S6: an 8 by 2 sprite at (63, 31); a pixel changes. -/
theorem witness_DrawTwiceRestoresTheScreen_wrap :
    ∃ s t : State, s.reg 1 = 63 ∧ s.reg 2 = 31 ∧ exec (.drw 1 2 2) s = .next t ∧ t.pixel 6 0 ≠ s.pixel 6 0 :=
  ⟨((((State.reset.setReg 1 63).setReg 2 31).setI 0x300).memWrite 0x300 0xFF).memWrite 0x301 0xFF, _,
    by decide, by decide, rfl, by decide⟩

theorem witness_ClearScreen_RandomByteUnderMask :
    State.reset.env.config.admitClsRnd = true ∧ (withConfig State.reset noClsRnd).env.config.admitClsRnd = false := by decide

theorem witness_DecodeOfEncodeIsTheInstruction : Instr.wf (.sys 0x0E1) = true := by decide

theorem witness_EncodeOfDecodeIsTheWord : decode 0x5121 = .ok (.seReg 1 2 1) := by decide

/-- A completing instruction, with the cycle the next event and with none pending. -/
theorem witness_StepRunsTheDecodedInstruction :
    (CycleFrom (start 0x6A2F id) (start 0x6A2F id) ∧ (start 0x6A2F id).fetchable ∧ Instr.wf (.ldImm 0xA 0x2F) = true ∧
      decode (start 0x6A2F id).fetchWord = .ok (.ldImm 0xA 0x2F) ∧
      ∃ t, exec (.ldImm 0xA 0x2F) (start 0x6A2F id) = .next t) ∧
    CycleFrom ((start 0x6A2F id).setSchedule [.cycle]) (start 0x6A2F id) :=
  ⟨⟨.inl ⟨rfl, rfl⟩, by decide, by decide, by decide, _, rfl⟩, .inr ⟨[], rfl, rfl⟩⟩

/-- A faulting one under both policies, and the refusing one (RET with `sp` above 16, log entry 11). -/
theorem witness_StepRunsTheDecodedInstruction_stops :
    (decode (start 0x00EE id).fetchWord = .ok .ret ∧ exec .ret (start 0x00EE id) = .fault (.stackUnderflow 0x00EE 0x0200) ∧
      (start 0x00EE id).env.config.driverOnError = .halt) ∧
    (exec .ret (start 0x00EE (fun s => withConfig s skipErrors)) = .fault (.stackUnderflow 0x00EE 0x0200) ∧
      (start 0x00EE (fun s => withConfig s skipErrors)).env.config.driverOnError = .skip) ∧
    exec .ret (start 0x00EE (fun s => s.setSp 18)) = .refused .stackPointerOutOfRange :=
  ⟨⟨by decide, rfl, rfl⟩, ⟨rfl, rfl⟩, rfl⟩

theorem witness_IllegalWordIsReported :
    (CycleFrom (start 0x8128 id) (start 0x8128 id) ∧ (start 0x8128 id).fetchable ∧
      decode (start 0x8128 id).fetchWord = .error (.class8 8) ∧ (start 0x8128 id).env.config.driverOnError = .halt) ∧
    (decode (start 0x8128 (fun s => withConfig s skipErrors)).fetchWord = .error (.class8 8) ∧
      (start 0x8128 (fun s => withConfig s skipErrors)).env.config.driverOnError = .skip) :=
  ⟨⟨.inl ⟨rfl, rfl⟩, by decide, by decide, rfl⟩, by decide, rfl⟩

theorem witness_ErrorInformationIsTheFetchedWord :
    dispatchWord (start 0x8128 id) = .fault (.unimplementedOpcode 0x8128 0x0200) ∧
    dispatchWord (start 0x2300 (fun s => s.setSp 16)) = .fault (.stackOverflow 0x2300 0x0200) ∧
    dispatchWord (start 0x00EE id) = .fault (.stackUnderflow 0x00EE 0x0200) := ⟨rfl, rfl, rfl⟩

theorem witness_OnlyAStrictOddCycleIsRefused :
    ((withConfig State.reset strictEven).setPc 0x0201).Inv ∧
    step ((withConfig State.reset strictEven).setPc 0x0201) = .refused .oddPc := ⟨by decide, rfl⟩

theorem witness_SkippingDriverAlwaysGoesOn :
    (withConfig State.reset skipErrors).Inv ∧ (withConfig State.reset skipErrors).fetchable ∧
    (withConfig State.reset skipErrors).env.config.driverOnError = .skip := by decide

/-- A step from a full stack and the highest `I`. -/
theorem witness_EveryStepKeepsTheInvariant :
    (start 0x00EE (fun s => (s.setSp 16).setI 0xFFF)).Inv ∧
    ∃ t, step (start 0x00EE (fun s => (s.setSp 16).setI 0xFFF)) = .next t := ⟨by decide, _, rfl⟩

theorem witness_StackDepthNeverExceedsSixteen :
    State.reset.Inv ∧ ∃ t, Host.Core.run Sys2Proof.core 1 State.reset = .next t := ⟨by decide, _, rfl⟩

/-- For each clause a step that changes the part it speaks of. -/
theorem witness_MemoryIndexAndStackHaveOnlyTheirWriters :
    (∃ s t, step s = .next t ∧ t.memRead ≠ s.memRead) ∧ (∃ s t, step s = .next t ∧ t.I ≠ s.I) ∧
    (∃ s t, step s = .next t ∧ t.slot ≠ s.slot ∧ t.sp ≠ s.sp) :=
  ⟨⟨start 0xF033 (fun s => (s.setReg 0 9).setI 0x300), _, rfl, fun h => absurd (congrFun h 0x302) (by decide)⟩,
    ⟨start 0xA2F0 id, _, rfl, by decide⟩,
    ⟨start 0x2300 id, _, rfl, fun h => absurd (congrFun h 0) (by decide), by decide⟩⟩

theorem witness_KeypadAndScreenHaveOnlyTheirWriters :
    (∃ s t, step s = .next t ∧ t.keypad ≠ s.keypad) ∧ (∃ s t, step s = .next t ∧ t.pixel ≠ s.pixel) :=
  ⟨⟨State.reset.setSchedule [.keys 1], _, rfl, by decide⟩,
    ⟨start 0xD011 (fun s => s.setI 0x050), _, rfl, fun h => absurd (congrFun (congrFun h 0) 0) (by decide)⟩⟩

theorem witness_RegistersHaveOnlyTheirWriters :
    ∃ s t : State, step s = .next t ∧ t.reg 0xA ≠ s.reg 0xA ∧ (0xA : Nibble) ≠ 0xF :=
  ⟨start 0x6A2F id, _, rfl, by decide, by decide⟩

theorem witness_FlagRegisterHasOnlyItsWriters :
    ∃ s t : State, step s = .next t ∧ t.reg 0xF ≠ s.reg 0xF :=
  ⟨start 0x8014 (fun s => (s.setReg 0 0xFF).setReg 1 1), _, rfl, by decide⟩

/-- For each clause an instruction that completes and meets its premise. -/
theorem witness_NetProgramCounter :
    (∃ t, exec (.call 0x300) State.reset = .next t) ∧ (∃ t, exec (.jpV0 0xFFF) State.reset = .next t) ∧
    (∃ t, exec .ret (State.reset.setSp 16) = .next t) ∧
    (skipCondition (.seImm 0 0) State.reset = some true ∧ ∃ t, exec (.seImm 0 0) State.reset = .next t) ∧
    (∃ t, exec (.ldVxK 2) State.reset = .next t) ∧
    (skipCondition (.ldImm 0 0) State.reset = none ∧ ∃ t, exec (.ldImm 0 0) State.reset = .next t) :=
  ⟨⟨_, rfl⟩, ⟨_, rfl⟩, ⟨_, rfl⟩, ⟨rfl, _, rfl⟩, ⟨_, rfl⟩, rfl, _, rfl⟩

theorem witness_NoStepChangesTheParameters : ∃ t, step State.reset = .next t := ⟨_, rfl⟩

theorem witness_TickDecrementsBothTimers : (State.reset.setSchedule [.tick]).env.schedule = .tick :: [] := rfl

theorem witness_TicksFloorAtZero :
    (State.reset.setSchedule [.tick, .tick, .cycle]).env.schedule = List.replicate 2 .tick ++ [.cycle] := rfl

theorem witness_TimersRiseOnlyWhenSet :
    (∃ s t : State, step s = .next t ∧ s.dt.toNat < t.dt.toNat) ∧
    (∃ s t : State, step s = .next t ∧ s.st.toNat < t.st.toNat) :=
  ⟨⟨start 0xF515 (fun s => s.setReg 5 0x3C), _, rfl, by decide⟩,
    ⟨start 0xF518 (fun s => s.setReg 5 0x3C), _, rfl, by decide⟩⟩

theorem witness_KeypadUpdateSetsTheMask :
    (State.reset.setSchedule [.keys 0xFFFF]).env.schedule = .keys 0xFFFF :: [] := rfl

theorem witness_SoundTimerIsNeverRead :
    (∃ t, exec (.ldStVx 0) State.reset = .next t) ∧ ∃ f, exec .ret State.reset = .fault f := ⟨⟨_, rfl⟩, _, rfl⟩

theorem witness_DeadStackSlotsAreNeverRead :
    (State.reset.setSp 15).sp.toNat ≤ 15 ∧ (∃ t, exec (.call 0x300) (State.reset.setSp 15) = .next t) ∧
    State.reset.sp.toNat ≤ 0 ∧ ∃ f, exec .ret State.reset = .fault f := ⟨by decide, ⟨_, rfl⟩, by decide, _, rfl⟩

theorem witness_CallThenReturnComesBack : (State.reset.setSp 15).sp.toNat < 16 := by decide

/-- `LD [I],V1` at 0x200 with `I` at the next instruction. -/
theorem witness_FetchSeesTheLatestStore :
    ∃ s t : State, exec (.storeRegs 1) s = .next t ∧ (0 : Nibble).toNat < (1 : Nibble).toNat ∧
      t.pc.toNat % 4096 = (s.I.toNat + (0 : Nibble).toNat) % 4096 :=
  ⟨State.reset.setI 0x202, _, rfl, by decide, by decide⟩

/-- The addresses beside the font, and the last row of the last glyph. -/
theorem witness_ResetZeroesAllButFontAndPc :
    (0x04F < 4096 ∧ ¬(0x050 ≤ 0x04F ∧ 0x04F ≤ 0x09F)) ∧ (0x0A0 < 4096 ∧ ¬(0x050 ≤ 0x0A0 ∧ 0x0A0 ≤ 0x09F)) ∧
    (0x0FFF < 4096 ∧ ¬(0x050 ≤ 0x0FFF ∧ 0x0FFF ≤ 0x09F)) ∧ 15 < 16 := by decide

theorem witness_ResetHoldsTheFontAndTheEntryPoint : 15 < 16 ∧ 4 < 5 ∧ 0x050 + 5 * 15 + 4 = 0x09F := by decide

/-- The longest image and one byte more. -/
theorem witness_RomLoadPlacesTheImage :
    ((List.replicate 3584 (0 : Byte)).length ≤ 3584 ∧ 3583 < (List.replicate 3584 (0 : Byte)).length) ∧
    3584 < (List.replicate 3585 (0 : Byte)).length := by
  simp only [List.length_replicate]; decide

theorem witness_PlacedWordIsRunNext :
    65535 < 65536 ∧ 0x202 % 4096 ≠ State.reset.pc.toNat % 4096 ∧ 0x202 % 4096 ≠ (State.reset.pc.toNat + 1) % 4096 := by decide

/-- C21: `JP 0x200` at 0x200. -/
theorem witness_ParkedStateStepsToItself :
    (start 0x1200 id).parked ∧ (start 0x1200 id).fetchable ∧ (start 0x1200 id).env.schedule = [] := by decide

/-- T5: the key wait with no key down. -/
theorem witness_KeyWaitPollsWhileNoKeyIsDown :
    decode (start 0xF20A id).fetchWord = .ok (.ldVxK 2) ∧ (start 0xF20A id).keypad = 0 ∧ (start 0xF20A id).fetchable ∧
    (start 0xF20A id).env.schedule = [] := by decide

end Sys2Proof.Tests
end

section
/-! What the accessors read in the state after reset (10_state.md R24), and O53. -/

namespace Sys2Proof.Machine

@[simp] theorem reset_reg (r : Nibble) : State.reset.reg r = 0 := by
  simp [State.reg, State.reset]

@[simp] theorem reset_slot {k : Nat} (hk : k < 16) : State.reset.slot k = some 0 := by
  simp [State.slot, State.reset, hk]

@[simp] theorem reset_pixel (x y : Nat) : State.reset.pixel x y = false := by
  simp [State.pixel, fbPixel, State.reset]

/-- No byte is listed after reset, so every address reads as its reset contents. -/
@[simp] theorem reset_memRead (a : Nat) : State.reset.memRead a = resetByte (a % 4096) := rfl

/-- The reset contents are 0 outside the Font Table. -/
theorem resetByte_of_not_font {a : Nat} (h : ¬(0x050 ≤ a ∧ a ≤ 0x09F)) : resetByte a = 0 :=
  if_neg (by omega)

theorem reset_memRead_of_not_font {a : Nat} (ha : a < 4096) (h : ¬(0x050 ≤ a ∧ a ≤ 0x09F)) :
    State.reset.memRead a = 0 := by
  rw [reset_memRead, Nat.mod_eq_of_lt ha, resetByte_of_not_font h]

/-- Settles O53: the arrays are replicated zeros, the scalar fields are 0 by definition, and memory lists no byte, so it
reads as the reset contents. -/
theorem resetZeroesAllButFontAndPc : Obligations.ResetZeroesAllButFontAndPc :=
  ⟨reset_reg, rfl, rfl, fun _ => reset_slot, rfl, rfl, rfl, reset_pixel, fun _ => reset_memRead_of_not_font⟩

end Sys2Proof.Machine
end

section
/-! The value of an instruction word and of a fetch (20_memory.md R33), and O29. -/

namespace Sys2Proof

/-- Two bytes joined high byte first (R33). -/
theorem wordOfBytes_toNat (hi lo : Byte) : (wordOfBytes hi lo).toNat = hi.toNat * 256 + lo.toNat := by
  have hlo : lo.toNat < 2 ^ 8 := lo.isLt
  rw [wordOfBytes, BitVec.toNat_cast, BitVec.toNat_append, ← Nat.shiftLeft_add_eq_or_of_lt hlo, Nat.shiftLeft_eq]

end Sys2Proof

namespace Sys2Proof.Machine

theorem fetchWord_toNat (s : State) :
    s.fetchWord.toNat = (s.memRead s.pc.toNat).toNat * 256 + (s.memRead (s.pc.toNat + 1)).toNat :=
  wordOfBytes_toNat _ _

/-- Settles O29: the value of the fetched word, where `memRead` is by definition `mem.read` at the address modulo
4096. -/
theorem fetchIsBigEndianAndWraps : Obligations.FetchIsBigEndianAndWraps := fetchWord_toNat

end Sys2Proof.Machine
end

section
/-! What the opcode map rejects (30_encoding.md R57 to R59), that a word which decodes is the word of its instruction,
and O28. -/

namespace Sys2Proof

/-! ## Rejected words -/

/-- The nine sub-opcodes of class 8 and the seven that select no handler are all sixteen (R57). -/
theorem mem_unusedClass8_iff (n : Nibble) :
    n ∈ ([0x8, 0x9, 0xA, 0xB, 0xC, 0xD, 0xF] : List Nibble) ↔
      n ∉ ([0x0, 0x1, 0x2, 0x3, 0x4, 0x5, 0x6, 0x7, 0xE] : List Nibble) := by
  revert n; decide

theorem decode8_rejects_iff (w : Word) :
    (∃ e, decode8 w = .error e) ↔ nOf w ∈ ([0x8, 0x9, 0xA, 0xB, 0xC, 0xD, 0xF] : List Nibble) := by
  rw [mem_unusedClass8_iff, decode8]
  split <;> simp_all

theorem decodeE_rejects_iff (w : Word) :
    (∃ e, decodeE w = .error e) ↔ nnOf w ∉ ([0x9E, 0xA1] : List Byte) := by
  rw [decodeE]
  split <;> simp_all

theorem decodeF_rejects_iff (w : Word) :
    (∃ e, decodeF w = .error e) ↔
      nnOf w ∉ ([0x07, 0x0A, 0x15, 0x18, 0x1E, 0x29, 0x33, 0x55, 0x65] : List Byte) := by
  rw [decodeF]
  split <;> simp_all

/-- The last arm of `decode` is class F. -/
theorem class_eq_F_of_ne {c : Nibble}
    (h : c ∉ ([0, 1, 2, 3, 4, 5, 6, 7, 8, 9, 0xA, 0xB, 0xC, 0xD, 0xE] : List Nibble)) : c = 0xF := by
  revert c; decide

/-- Only classes 8, E and F hold words the map rejects. -/
theorem decode_rejects_iff (w : Word) :
    (∃ e, decode w = .error e) ↔
      (classOf w = 0x8 ∧ ∃ e, decode8 w = .error e) ∨ (classOf w = 0xE ∧ ∃ e, decodeE w = .error e) ∨
        (classOf w = 0xF ∧ ∃ e, decodeF w = .error e) := by
  unfold decode
  split -- class `k` is arm `k + 1`
  case h_16 =>
    have hc : classOf w = 0xF := class_eq_F_of_ne (by simp_all)
    simp [hc]
  all_goals next hc => simp [hc]

/-! ## A word that decodes -/

theorem encode_decode0 {w : Word} (hc : classOf w = 0x0) : encode (decode0 w) = w := by
  have hw : wordNNN 0x0 (nnnOf w) = w := hc ▸ wordNNN_fields w
  unfold decode0
  split
  · next h => rwa [h] at hw
  · split
    · next h => rwa [h] at hw
    · exact hw

theorem encode_of_decode8 {w : Word} {i : Instr} (hc : classOf w = 0x8) (h : decode8 w = .ok i) : encode i = w := by
  have hw : wordXYN 0x8 (xOf w) (yOf w) (nOf w) = w := hc ▸ wordXYN_fields w
  unfold decode8 at h
  split at h <;> cases h <;> next hn => rwa [hn] at hw

theorem encode_of_decodeE {w : Word} {i : Instr} (hc : classOf w = 0xE) (h : decodeE w = .ok i) : encode i = w := by
  have hw : wordXNN 0xE (xOf w) (nnOf w) = w := hc ▸ wordXNN_fields w
  unfold decodeE at h
  split at h <;> cases h <;> next hn => rwa [hn] at hw

theorem encode_of_decodeF {w : Word} {i : Instr} (hc : classOf w = 0xF) (h : decodeF w = .ok i) : encode i = w := by
  have hw : wordXNN 0xF (xOf w) (nnOf w) = w := hc ▸ wordXNN_fields w
  unfold decodeF at h
  split at h <;> cases h <;> next hn => rwa [hn] at hw

/-- A word that decodes is the word of the instruction it decodes to. -/
theorem encode_of_decode {w : Word} {i : Instr} (h : decode w = .ok i) : encode i = w := by
  have hNNN := wordNNN_fields w
  have hXNN := wordXNN_fields w
  have hXYN := wordXYN_fields w
  unfold decode at h
  split at h -- class `k` is arm `k + 1`: the four with a second discriminator, then the others by format (R52)
  case h_1 hc => cases h; exact encode_decode0 hc
  case h_9 hc => exact encode_of_decode8 hc h
  case h_15 hc => exact encode_of_decodeE hc h
  case h_16 => exact encode_of_decodeF (class_eq_F_of_ne (by simp_all)) h
  case h_2 hc | h_3 hc | h_11 hc | h_12 hc => cases h; rwa [hc] at hNNN
  case h_4 hc | h_5 hc | h_7 hc | h_8 hc | h_13 hc => cases h; rwa [hc] at hXNN
  case h_6 hc | h_10 hc | h_14 hc => cases h; rwa [hc] at hXYN

/-- Only 00E0 decodes to CLS. -/
theorem eq_cls_iff_of_decode {w : Word} {i : Instr} (h : decode w = .ok i) : i = .cls ↔ w = 0x00E0 := by
  constructor
  · rintro rfl
    exact (encode_of_decode h).symm
  · rintro rfl
    cases h
    rfl

/-- Only class C decodes to RND. -/
theorem eq_rnd_iff_of_decode {w : Word} {i : Instr} (h : decode w = .ok i) :
    (∃ x nn, i = .rnd x nn) ↔ classOf w = 0xC := by
  constructor
  · rintro ⟨x, nn, rfl⟩
    rw [← encode_of_decode h]
    exact classOf_wordXNN _ _ _
  · intro hc
    simp only [decode, hc] at h
    cases h
    exact ⟨_, _, rfl⟩

/-- Settles O28: seven closed words, each run through the opcode map. -/
theorem wordsOfTheTableDecode : Obligations.WordsOfTheTableDecode := by
  unfold Obligations.WordsOfTheTableDecode
  decide

end Sys2Proof
end

section
/-! Exactly when an instruction raises an error (41_control_flow.md R108, R109, 30_encoding.md R60), and O32. -/

namespace Sys2Proof.Machine

/-- CALL: the stack is full (R108). -/
theorem exec_call_fault_iff (nnn : Addr) (s : State) (f : Fault) :
    exec (.call nnn) s = .fault f ↔ 16 ≤ s.sp.toNat ∧ f = .stackOverflow (encode (.call nnn)) s.pc := by
  rw [exec, execCall]
  split
  · next h => simp [h, @eq_comm _ f]
  · next h => simp [h]

/-- RET: the stack is empty (R109); above 16 it is refused, which is no fault. -/
theorem exec_ret_fault_iff (s : State) (f : Fault) :
    exec .ret s = .fault f ↔ s.sp = 0 ∧ f = .stackUnderflow (encode .ret) s.pc := by
  rw [exec, execRet]
  split
  · next h => simp [h, @eq_comm _ f]
  · next h => split <;> exact iff_of_false nofun fun hf => h hf.1

/-- CLS: not admitted (R60). -/
theorem exec_cls_fault_iff (s : State) (f : Fault) :
    exec .cls s = .fault f ↔ s.env.config.admitClsRnd = false ∧ f = .unimplementedOpcode (encode .cls) s.pc := by
  rw [exec, execCls]
  split
  · next h => simp [h]
  · next h => simp [h, @eq_comm _ f]

/-- RND: not admitted (R60). -/
theorem exec_rnd_fault_iff (x : Nibble) (nn : Byte) (s : State) (f : Fault) :
    exec (.rnd x nn) s = .fault f ↔
      s.env.config.admitClsRnd = false ∧ f = .unimplementedOpcode (encode (.rnd x nn)) s.pc := by
  rw [exec, execRnd]
  split
  · next h => simp [h]
  · next h => simp [h, @eq_comm _ f]

/-- The key wait completes with and without a key down. -/
theorem exec_ldVxK_ne_fault (x : Nibble) (s : State) (f : Fault) : exec (.ldVxK x) s ≠ .fault f := by
  rw [exec, execLdVxK]
  split <;> simp

/-- Settles O32, by cases on the instruction: four can raise an error, each under the condition of its lemma above;
every other meaning completes. -/
theorem errorsAreRaisedExactlyThere : Obligations.ErrorsAreRaisedExactlyThere := by
  unfold Obligations.ErrorsAreRaisedExactlyThere
  intro i s f
  cases i with
  | call nnn => simp [exec_call_fault_iff]
  | ret => simp [exec_ret_fault_iff]
  | cls => simp [exec_cls_fault_iff]
  | rnd x nn => simp [exec_rnd_fault_iff]
  | ldVxK x => simp [exec_ldVxK_ne_fault]
  | _ => exact iff_of_false nofun (by simp)

end Sys2Proof.Machine
end

section
/-! When a dispatch raises UnimplementedOpcode (30_encoding.md R57 to R61), and O27. -/

namespace Sys2Proof.Machine

theorem dispatchWord_of_ok {s : State} {i : Instr} (h : decode s.fetchWord = .ok i) : dispatchWord s = exec i s := by
  simp only [dispatchWord, h]

theorem dispatchWord_of_error {s : State} {e : Reject} (h : decode s.fetchWord = .error e) :
    dispatchWord s = .fault (.unimplementedOpcode s.fetchWord s.pc) := by
  simp only [dispatchWord, h, raise_eq]

/-- A word that decodes is dispatched to UnimplementedOpcode exactly when it is CLS or RND and they are not admitted
(R60). -/
theorem dispatchWord_unimplemented_iff_of_ok {s : State} {i : Instr} (h : decode s.fetchWord = .ok i) :
    dispatchWord s = .fault (.unimplementedOpcode s.fetchWord s.pc) ↔
      s.env.config.admitClsRnd = false ∧ (s.fetchWord = 0x00E0 ∨ classOf s.fetchWord = 0xC) := by
  rw [dispatchWord_of_ok h, errorsAreRaisedExactlyThere i s, encode_of_decode h, eq_cls_iff_of_decode h,
    eq_rnd_iff_of_decode h]
  simp [and_comm]

/-- The error of a dispatch is the fallback's (R61), or that of CLS and RND where they are not admitted (R60). -/
theorem dispatchWord_unimplemented_iff (s : State) :
    dispatchWord s = .fault (.unimplementedOpcode s.fetchWord s.pc) ↔
      (∃ e, decode s.fetchWord = .error e) ∨
        (s.env.config.admitClsRnd = false ∧ (s.fetchWord = 0x00E0 ∨ classOf s.fetchWord = 0xC)) := by
  cases hd : decode s.fetchWord with
  | error e => exact iff_of_true (dispatchWord_of_error hd) (.inl ⟨e, rfl⟩)
  | ok i => exact (dispatchWord_unimplemented_iff_of_ok hd).trans (or_iff_right (by simp)).symm

/-- Settles O27: the words the opcode map rejects, class by class, and CLS and RND where they are not admitted. -/
theorem illegalWordsAreExactlyThese : Obligations.IllegalWordsAreExactlyThese := by
  unfold Obligations.IllegalWordsAreExactlyThese
  intro s
  rw [dispatchWord_unimplemented_iff, decode_rejects_iff, decode8_rejects_iff, decodeE_rejects_iff,
    decodeF_rejects_iff, or_assoc, or_assoc]

end Sys2Proof.Machine
end

section
/-! What a skip leaves (41_control_flow.md R111), and O8. -/

namespace Sys2Proof.Machine

/-- An instruction whose meaning is a skip moves `pc` by 4 or by 2 and nothing else. -/
theorem completes_of_skipIf {i : Instr} {s : State} {c : Bool} (h : exec i s = complete .advance (s.skipIf c)) :
    Completes i s { view s with pc := if c then s.pc + 4 else s.pc + 2 } := by
  refine ⟨_, h, ?_⟩
  cases c
  · rfl
  · exact congrArg (fun p => { view s with pc := p }) (BitVec.add_assoc s.pc 2 2)

/-- Settles O8: both meanings are skips that do not read the low nibble, SNE's on the negated test. -/
theorem registerSkipsIgnoreTheLowNibble : Obligations.RegisterSkipsIgnoreTheLowNibble := by
  unfold Obligations.RegisterSkipsIgnoreTheLowNibble
  intro s x y n
  have hse := completes_of_skipIf (i := .seReg x y n) (s := s) rfl
  have hsne := completes_of_skipIf (i := .sneReg x y n) (s := s) rfl
  refine ⟨⟨Laws.RoundTrip.seReg x y n rfl, ?_⟩, ⟨Laws.RoundTrip.sneReg x y n rfl, ?_⟩⟩
  · simpa using hse
  · simpa [ite_not] using hsne

end Sys2Proof.Machine
end

section
/-! What the arithmetic and logic handlers leave (40_arith_logic.md R80 to R92), and O1 to O6. -/

namespace Sys2Proof.Machine

/-! ## Results and flags as operations on bytes, and the source of the shifts -/

theorem addResult_eq (a b : Byte) : addResult a b = a + b := by
  rw [addResult, BitVec.ofNat_add, BitVec.ofNat_toNat, BitVec.ofNat_toNat, BitVec.setWidth_eq, BitVec.setWidth_eq]

/-- The 256 that keeps the subtraction on naturals from being cut at 0 is lost modulo 256. -/
theorem subResult_eq (a b : Byte) : subResult a b = a - b := by
  apply BitVec.eq_of_toNat_eq
  rw [subResult, BitVec.toNat_ofNat, BitVec.toNat_sub]
  omega

theorem shrResult_eq (a : Byte) : shrResult a = a >>> 1 := by
  apply BitVec.eq_of_toNat_eq
  rw [shrResult, BitVec.toNat_ofNat, BitVec.toNat_ushiftRight, Nat.shiftRight_eq_div_pow]
  omega

theorem shlResult_eq (a : Byte) : shlResult a = a <<< 1 := by
  apply BitVec.eq_of_toNat_eq
  rw [shlResult, BitVec.toNat_ofNat, BitVec.toNat_shiftLeft, Nat.shiftLeft_eq, pow_one, Nat.mul_comm]

theorem flagByte_decide (p : Prop) [Decidable p] : flagByte (decide p) = if p then 1 else 0 := by
  simp only [flagByte, decide_eq_true_eq]

/-- A flag taken from a bit of a byte is that bit alone. -/
theorem flagByte_shrFlag (a : Byte) : flagByte (shrFlag a) = a &&& 1 := by
  have h : a &&& 1 = (BitVec.ofBool (a.getLsbD 0)).setWidth 8 := BitVec.and_one_eq_setWidth_ofBool_getLsbD
  rw [shrFlag, h]
  cases a.getLsbD 0 <;> rfl

/-- Bit 7 is the top bit, so shifting right by 7 leaves it alone. -/
theorem flagByte_shlFlag (a : Byte) : flagByte (shlFlag a) = a >>> 7 := by
  revert a; decide

/-- The source of the shifts under each setting of `SHIFT_SOURCE`. -/
theorem shiftOperand_eq {s : State} {x y : Nibble} {a : Byte}
    (h : s.env.config.shiftSource = .x ∧ a = s.reg x ∨ s.env.config.shiftSource = .y ∧ a = s.reg y) :
    s.shiftOperand x y = a := by
  obtain ⟨hsrc, rfl⟩ | ⟨hsrc, rfl⟩ := h <;> rw [State.shiftOperand, hsrc]

/-! ## The two shapes of a handler -/

/-- An instruction whose meaning is one register write moves `pc` by 2 and changes nothing else. -/
theorem completes_of_setReg {i : Instr} {s : State} {x : Nibble} {b : Byte}
    (h : exec i s = complete .advance (s.setReg x b)) :
    Completes i s { view s with regs := fun r => if r = x then b else s.reg r, pc := s.pc + 2 } := by
  refine ⟨_, h, ?_⟩
  rw [view_setPc, view_setReg, State.setReg_pc]

/-- An instruction whose meaning is a result and then a flag moves `pc` by 2 and changes nothing else; the flag wins
(R14). The result and the flag are given as the bytes `v` and `w` they are. -/
theorem completes_of_setRegAndFlag {i : Instr} {s : State} {x : Nibble} {b v w : Byte} {f : Bool}
    (h : exec i s = complete .advance (s.setRegAndFlag x b f)) (hv : b = v) (hw : flagByte f = w) :
    Completes i s
      { view s with regs := fun r => if r = 0xF then w else if r = x then v else s.reg r, pc := s.pc + 2 } := by
  subst hv hw
  refine ⟨_, h, ?_⟩
  rw [view_setPc, view_setRegAndFlag]
  rfl

/-! ## The statements -/

/-- Settles O1: each move is one register write. -/
theorem loadImmediateAndRegisterCopy : Obligations.LoadImmediateAndRegisterCopy := fun _ x y nn =>
  ⟨⟨Laws.RoundTrip.ldImm x nn rfl, completes_of_setReg rfl⟩, ⟨Laws.RoundTrip.ldReg x y rfl, completes_of_setReg rfl⟩⟩

/-- Settles O2: one register write, of the sum modulo 256. -/
theorem addImmediateKeepsTheFlag : Obligations.AddImmediateKeepsTheFlag := by
  unfold Obligations.AddImmediateKeepsTheFlag
  intro s x nn
  have h : exec (.addImm x nn) s = complete .advance (s.setReg x (s.reg x + nn)) := by
    rw [exec, execAddImm, addResult_eq]
  exact ⟨Laws.RoundTrip.addImm x nn rfl, completes_of_setReg h⟩

/-- Settles O3: each operation is one register write. -/
theorem bitwiseOperationsKeepTheFlag : Obligations.BitwiseOperationsKeepTheFlag := fun _ x y =>
  ⟨⟨Laws.RoundTrip.orReg x y rfl, completes_of_setReg rfl⟩, ⟨Laws.RoundTrip.andReg x y rfl, completes_of_setReg rfl⟩,
    ⟨Laws.RoundTrip.xorReg x y rfl, completes_of_setReg rfl⟩⟩

/-- Settles O4: the sum and then the carry. -/
theorem addRegistersSetsCarry : Obligations.AddRegistersSetsCarry := fun _ x y =>
  ⟨Laws.RoundTrip.addReg x y rfl, completes_of_setRegAndFlag rfl (addResult_eq _ _) (flagByte_decide _)⟩

/-- Settles O5: the difference and then the strict comparison, SUBN's with the operands exchanged. -/
theorem subtractionsSetStrictlyGreater : Obligations.SubtractionsSetStrictlyGreater := fun _ x y =>
  ⟨⟨Laws.RoundTrip.sub x y rfl, completes_of_setRegAndFlag rfl (subResult_eq _ _) (flagByte_decide _)⟩,
    ⟨Laws.RoundTrip.subn x y rfl, completes_of_setRegAndFlag rfl (subResult_eq _ _) (flagByte_decide _)⟩⟩

/-- Settles O6: the shifted source and then the bit shifted out, the source being the configured register. -/
theorem shiftsUseTheConfiguredSource : Obligations.ShiftsUseTheConfiguredSource := by
  unfold Obligations.ShiftsUseTheConfiguredSource
  intro s x y a ha
  obtain rfl := shiftOperand_eq ha
  exact
    ⟨⟨Laws.RoundTrip.shr x y rfl, completes_of_setRegAndFlag rfl (shrResult_eq _) (flagByte_shrFlag _)⟩,
      ⟨Laws.RoundTrip.shl x y rfl, completes_of_setRegAndFlag rfl (shlResult_eq _) (flagByte_shlFlag _)⟩⟩

end Sys2Proof.Machine
end

section
/-! The immediate skips, the absolute jumps and RET (41_control_flow.md R100, R101, R106, R109, R110), and O7, O10 and
O13. -/

namespace Sys2Proof.Machine

/-- A skip taken exactly when `P` holds. -/
theorem completes_of_skip_when {i : Instr} {s : State} {P : Prop} [Decidable P]
    (h : exec i s = complete .advance (s.skipIf (decide P))) :
    Completes i s { view s with pc := if P then s.pc + 4 else s.pc + 2 } := by
  simpa only [decide_eq_true_eq] using completes_of_skipIf h

/-- A skip taken exactly when `P` fails. -/
theorem completes_of_skip_unless {i : Instr} {s : State} {P : Prop} [Decidable P]
    (h : exec i s = complete .advance (s.skipIf (!decide P))) :
    Completes i s { view s with pc := if P then s.pc + 2 else s.pc + 4 } := by
  simpa only [Bool.not_eq_true', decide_eq_false_iff_not, ite_not] using completes_of_skipIf h

/-- An instruction whose meaning is a jump moves `pc` to its target and nothing else. -/
theorem completes_of_jump {i : Instr} {s : State} {p target : Word}
    (h : exec i s = complete .suppress (s.setPc p)) (hp : p = target) :
    Completes i s { view s with pc := target } :=
  ⟨s.setPc p, h, hp ▸ view_setPc s p⟩

/-- RET on a stack whose newest slot exists: the pop lowers `sp` and leaves the slots as they are (R18). -/
theorem exec_ret_of_slot {s : State} {target : Word} (hsp : s.sp ≠ 0)
    (hslot : s.slot (s.sp.toNat - 1) = some target) :
    exec .ret s = .next ((s.setSp (s.sp - 1)).setPc target) := by
  simp only [exec, execRet, if_neg hsp, hslot, complete_suppress]

/-- Under the invariant's bound the slot below `sp` is one of the sixteen. -/
theorem exists_newest_slot {s : State} (h : s.sp.toNat ≤ 16) : ∃ target, s.slot (s.sp.toNat - 1) = some target := by
  rw [← Option.isSome_iff_exists, slot_isSome, decide_eq_true_eq]
  omega

/-- Settles O7: both meanings are skips, SNE's on the negated test. -/
theorem immediateSkips : Obligations.ImmediateSkips := by
  unfold Obligations.ImmediateSkips
  intro s x nn
  exact ⟨⟨Laws.RoundTrip.seImm x nn rfl, completes_of_skip_when rfl⟩,
    ⟨Laws.RoundTrip.sneImm x nn rfl, completes_of_skip_unless rfl⟩⟩

/-- Settles O10: both meanings are jumps to `nnn`; SYS decodes for every `nnn` that makes it well formed (R56). -/
theorem jumpsSetTheProgramCounter : Obligations.JumpsSetTheProgramCounter := by
  unfold Obligations.JumpsSetTheProgramCounter
  intro s nnn
  have htarget : nnn.setWidth 16 = BitVec.ofNat 16 nnn.toNat := (BitVec.ofNat_toNat 16 nnn).symm
  refine ⟨⟨Laws.RoundTrip.jp nnn rfl, completes_of_jump rfl htarget⟩, fun hcls hret => ?_,
    completes_of_jump rfl htarget⟩
  have hwf : (Instr.sys nnn).wf = true :=
    Bool.and_eq_true_iff.2 ⟨bne_iff_ne.2 hcls, bne_iff_ne.2 hret⟩
  exact Laws.RoundTrip.sys nnn hwf

/-- Settles O13: the pop, that there is a slot to pop, and the underflow with RET's own word. -/
theorem returnPopsTheNewestSlot : Obligations.ReturnPopsTheNewestSlot := by
  unfold Obligations.ReturnPopsTheNewestSlot
  refine ⟨rfl, fun s hs => ⟨fun target hsp hslot => ?_, fun _ => exists_newest_slot hs, fun hsp => ?_⟩⟩
  · exact ⟨_, exec_ret_of_slot hsp hslot, rfl⟩
  · exact (exec_ret_fault_iff s _).2 ⟨hsp, rfl⟩

end Sys2Proof.Machine
end

section
/-! What the memory and index handlers leave (42_memory_index.md R120, R123 to R126), and O14 and O16 to O18. -/

namespace Sys2Proof.Machine

/-- An instruction that does not retarget leaves what its handler leaves, with `pc` 2 further (30_encoding.md R62). -/
theorem completes_of_advance {i : Instr} {s u : State} {v : View} (h : exec i s = complete .advance u)
    (hv : view u = v) : Completes i s { v with pc := v.pc + 2 } := by
  subst hv
  exact ⟨_, h, view_setPc u _⟩

/-! ## The three stores of LD B -/

theorem effAddr_mod (s : State) (k : Nat) : s.effAddr k % 4096 = s.effAddr k := Nat.mod_eq_of_lt (effAddr_lt s k)

/-- Bytes stored at offsets 0, 1 and 2 from `I`: the three addresses differ, so none overwrites another and the order of
the tests does not matter. -/
theorem view_memWrite_three (s : State) (b₀ b₁ b₂ : Byte) :
    view (((s.memWrite (s.effAddr 0) b₀).memWrite (s.effAddr 1) b₁).memWrite (s.effAddr 2) b₂) =
      { view s with
        byte := fun a =>
          if a % 4096 = s.effAddr 0 then b₀
          else if a % 4096 = s.effAddr 1 then b₁
          else if a % 4096 = s.effAddr 2 then b₂
          else s.memRead a } := by
  have h01 : s.effAddr 0 ≠ s.effAddr 1 := mt (effAddr_inj s (by decide) (by decide)).1 (by decide)
  have h02 : s.effAddr 0 ≠ s.effAddr 2 := mt (effAddr_inj s (by decide) (by decide)).1 (by decide)
  have h12 : s.effAddr 1 ≠ s.effAddr 2 := mt (effAddr_inj s (by decide) (by decide)).1 (by decide)
  simp only [view_memWrite, memRead_memWrite, effAddr_mod]
  congr 1
  funext a
  by_cases h0 : a % 4096 = s.effAddr 0
  · simp only [h0, if_true, h01, h02, if_false]
  · by_cases h1 : a % 4096 = s.effAddr 1
    · simp only [h1, if_true, h01.symm, h12, if_false]
    · simp only [h0, h1, if_false]

/-! ## The block transfers -/

/-- The stores of a block change no part of the state but memory. -/
theorem view_storeFirst (s : State) {k : Nat} (hk : k ≤ 16) :
    view (s.storeFirst k) = { view s with byte := (s.storeFirst k).memRead } := by
  obtain ⟨-, -, hmem⟩ := storeFirst_spec s k hk
  rw [hmem]
  rfl

/-- The loads of a block change no part of the state but the registers below `k`. -/
theorem view_loadFirst (s : State) {k : Nat} (hk : k ≤ 16) :
    view (s.loadFirst k) =
      { view s with regs := fun r => if r.toNat < k then s.memRead (s.I.toNat + r.toNat) else s.reg r } := by
  obtain ⟨hregs, hV⟩ := loadFirst_spec s k hk
  have hregs' : (s.loadFirst k).reg = fun r => if r.toNat < k then s.memRead (s.I.toNat + r.toNat) else s.reg r := by
    funext r
    rw [hregs, State.effAddr, memRead_mod]
  rw [← hregs', hV]
  rfl

/-! ## The statements -/

/-- Settles O17: the handler is the first `x + 1` stores, at distinct addresses. -/
theorem blockStoreWritesExactlyItsBytes : Obligations.BlockStoreWritesExactlyItsBytes := by
  unfold Obligations.BlockStoreWritesExactlyItsBytes
  intro s x
  have hk : x.toNat + 1 ≤ 16 := x.isLt
  obtain ⟨hstored, hkept, -⟩ := storeFirst_spec s (x.toNat + 1) hk
  have hview := view_storeFirst s hk
  refine ⟨Laws.RoundTrip.storeRegs x rfl, _, rfl, fun k hkx => ?_, fun a ha => ?_, ?_⟩
  · simpa only [State.setPc_memRead, State.effAddr, BitVec.ofNat_toNat, BitVec.setWidth_eq] using
      hstored k.toNat (Nat.lt_succ_of_le hkx)
  · exact hkept a fun j hj => ha j (Nat.le_of_lt_succ hj)
  · have hpc : (s.storeFirst (x.toNat + 1)).pc = s.pc := congrArg View.pc hview
    rw [view_setPc, hview, hpc]
    rfl

/-- Settles O18: the handler is the first `x + 1` loads. -/
theorem blockLoadWritesExactlyItsRegisters : Obligations.BlockLoadWritesExactlyItsRegisters := by
  unfold Obligations.BlockLoadWritesExactlyItsRegisters
  intro s x
  have hview := view_loadFirst s (k := x.toNat + 1) x.isLt
  simp only [Nat.lt_succ_iff] at hview
  exact ⟨Laws.RoundTrip.loadRegs x rfl, completes_of_advance rfl hview⟩

/-- Settles O14: the meaning is one write of `I`. -/
theorem setIndex : Obligations.SetIndex := by
  unfold Obligations.SetIndex
  intro s nnn
  rw [BitVec.ofNat_toNat]
  exact ⟨Laws.RoundTrip.ldI nnn rfl, completes_of_advance rfl (view_setI s (nnn.setWidth 16))⟩

/-- Settles O16: the meaning is the three stores, of the three digits. -/
theorem bcdStoresThreeDigits : Obligations.BcdStoresThreeDigits := fun s x =>
  ⟨Laws.RoundTrip.ldB x rfl, fun _ => rfl, completes_of_advance rfl (view_memWrite_three s _ _ _)⟩

end Sys2Proof.Machine
end

section
/-! What the timer moves leave (43_timer_keypad.md R135 to R137), and O19. -/

namespace Sys2Proof.Machine

/-- Settles O19: each move is one write, of `V[x]` or of a timer, before the base advance. -/
theorem timerMoves : Obligations.TimerMoves := by
  unfold Obligations.TimerMoves
  intro s x
  refine ⟨⟨Laws.RoundTrip.ldVxDt x rfl, ?_⟩, ⟨Laws.RoundTrip.ldDtVx x rfl, ?_⟩, ⟨Laws.RoundTrip.ldStVx x rfl, ?_⟩⟩
  · exact completes_of_setReg rfl
  · exact completes_of_advance rfl (view_setDt s (s.reg x))
  · exact completes_of_advance rfl (view_setSt s (s.reg x))

end Sys2Proof.Machine
end

section
/-! The opcode map and the encoder are inverse to each other (30_encoding.md R52, R55), and O25 and O26. -/

namespace Sys2Proof

/-- Class 0 takes the addresses of CLS and RET out of SYS (R56). -/
theorem decode0_wf (w : Word) : (decode0 w).wf = true := by
  unfold decode0
  split
  · rfl
  · next hcls =>
    split
    · rfl
    · next hret => exact Bool.and_eq_true_iff.2 ⟨bne_iff_ne.2 hcls, bne_iff_ne.2 hret⟩

theorem wf_of_decode8 {w : Word} {i : Instr} (h : decode8 w = .ok i) : i.wf = true := by
  unfold decode8 at h
  split at h <;> cases h <;> rfl

theorem wf_of_decodeE {w : Word} {i : Instr} (h : decodeE w = .ok i) : i.wf = true := by
  unfold decodeE at h
  split at h <;> cases h <;> rfl

theorem wf_of_decodeF {w : Word} {i : Instr} (h : decodeF w = .ok i) : i.wf = true := by
  unfold decodeF at h
  split at h <;> cases h <;> rfl

/-- The opcode map answers only well-formed instructions: outside class 0 no term is ill-formed. -/
theorem wf_of_decode {w : Word} {i : Instr} (h : decode w = .ok i) : i.wf = true := by
  unfold decode at h
  split at h -- class `k` is arm `k + 1`
  case h_1 => cases h; exact decode0_wf w
  case h_9 => exact wf_of_decode8 h
  case h_15 => exact wf_of_decodeE h
  case h_16 => exact wf_of_decodeF h
  all_goals cases h; rfl

/-- Settles O25, by cases on the instruction: its word has the class, the operands and the sub-opcode of its format. -/
theorem decodeOfEncodeIsTheInstruction : Obligations.DecodeOfEncodeIsTheInstruction := by
  unfold Obligations.DecodeOfEncodeIsTheInstruction
  intro i
  cases i with
  | sys nnn => exact Laws.RoundTrip.sys nnn
  | cls => exact Laws.RoundTrip.cls
  | ret => exact Laws.RoundTrip.ret
  | jp nnn => exact Laws.RoundTrip.jp nnn
  | call nnn => exact Laws.RoundTrip.call nnn
  | seImm x nn => exact Laws.RoundTrip.seImm x nn
  | sneImm x nn => exact Laws.RoundTrip.sneImm x nn
  | seReg x y n => exact Laws.RoundTrip.seReg x y n
  | ldImm x nn => exact Laws.RoundTrip.ldImm x nn
  | addImm x nn => exact Laws.RoundTrip.addImm x nn
  | ldReg x y => exact Laws.RoundTrip.ldReg x y
  | orReg x y => exact Laws.RoundTrip.orReg x y
  | andReg x y => exact Laws.RoundTrip.andReg x y
  | xorReg x y => exact Laws.RoundTrip.xorReg x y
  | addReg x y => exact Laws.RoundTrip.addReg x y
  | sub x y => exact Laws.RoundTrip.sub x y
  | shr x y => exact Laws.RoundTrip.shr x y
  | subn x y => exact Laws.RoundTrip.subn x y
  | shl x y => exact Laws.RoundTrip.shl x y
  | sneReg x y n => exact Laws.RoundTrip.sneReg x y n
  | ldI nnn => exact Laws.RoundTrip.ldI nnn
  | jpV0 nnn => exact Laws.RoundTrip.jpV0 nnn
  | rnd x nn => exact Laws.RoundTrip.rnd x nn
  | drw x y n => exact Laws.RoundTrip.drw x y n
  | skp x => exact Laws.RoundTrip.skp x
  | sknp x => exact Laws.RoundTrip.sknp x
  | ldVxDt x => exact Laws.RoundTrip.ldVxDt x
  | ldVxK x => exact Laws.RoundTrip.ldVxK x
  | ldDtVx x => exact Laws.RoundTrip.ldDtVx x
  | ldStVx x => exact Laws.RoundTrip.ldStVx x
  | addI x => exact Laws.RoundTrip.addI x
  | ldF x => exact Laws.RoundTrip.ldF x
  | ldB x => exact Laws.RoundTrip.ldB x
  | storeRegs x => exact Laws.RoundTrip.storeRegs x
  | loadRegs x => exact Laws.RoundTrip.loadRegs x

/-- Settles O26: no bit of the word is lost, and only class 0 could give an ill-formed term. -/
theorem encodeOfDecodeIsTheWord : Obligations.EncodeOfDecodeIsTheWord :=
  fun _ _ h => ⟨encode_of_decode h, wf_of_decode h⟩

end Sys2Proof
end

section
/-! The invariant of the machine (10_state.md R15, R18), and O36 to O38. -/

namespace Sys2Proof.Machine

/-! ## Every instruction keeps each part of the invariant -/

/-- Memory is written through `MemWrite` alone. -/
theorem exec_keeps_mem_wf {i : Instr} {s t : State} (h : exec i s = .next t) (hwf : s.mem.wf = true) :
    t.mem.wf = true := by
  by_cases hw : ∃ x, i = .ldB x ∨ i = .storeRegs x
  · obtain ⟨x, rfl | rfl⟩ := hw
    · cases h; exact wf_memWrite _ _ _ (wf_memWrite _ _ _ (wf_memWrite _ _ _ hwf))
    · cases h; exact wf_storeFirst s _ hwf
  · have hmem : t.mem = s.mem := (exec_frame h).mem fun x => ⟨fun hi => hw ⟨x, .inl hi⟩, fun hi => hw ⟨x, .inr hi⟩⟩
    rwa [hmem]

/-- The glyph addresses end well below 4096. -/
theorem fontAddress_lt (b : Byte) : (fontAddress b).toNat < 4096 := by
  rw [fontAddress, BitVec.toNat_ofNat]
  have hlast : 0x050 + 5 * (b.toNat % 16) < 4096 := by omega
  exact (Nat.mod_le _ _).trans_lt hlast

/-- Each of the three writers of `I` writes a 12-bit value. -/
theorem exec_keeps_I_lt {i : Instr} {s t : State} (h : exec i s = .next t) (hI : s.I.toNat < 4096) :
    t.I.toNat < 4096 := by
  by_cases hw : (∃ nnn, i = .ldI nnn) ∨ ∃ x, i = .addI x ∨ i = .ldF x
  · obtain ⟨nnn, rfl⟩ | ⟨x, rfl | rfl⟩ := hw
    · cases h
      show (nnn.setWidth 16).toNat < 4096
      rw [BitVec.toNat_setWidth]
      omega
    · cases h
      show (BitVec.ofNat 16 ((s.I.toNat + (s.reg x).toNat) % 4096)).toNat < 4096
      rw [BitVec.toNat_ofNat]
      omega
    · cases h; exact fontAddress_lt (s.reg x)
  · have hkept : t.I = s.I := (exec_frame h).I (fun nnn hi => hw (.inl ⟨nnn, hi⟩)) fun x =>
      ⟨fun hi => hw (.inr ⟨x, .inl hi⟩), fun hi => hw (.inr ⟨x, .inr hi⟩)⟩
    rwa [hkept]

/-- What CALL leaves when it completes: the stack was not full. -/
theorem exec_call_next {nnn : Addr} {s t : State} (h : exec (.call nnn) s = .next t) :
    s.sp.toNat < 16 ∧ t = (s.push (s.pc + 2)).setPc (nnn.setWidth 16) := by
  rw [exec, execCall] at h
  split at h
  · cases h
  · next hsp => cases h; exact ⟨by omega, rfl⟩

/-- What RET leaves when it completes: the stack was not empty and its newest slot is the target. -/
theorem exec_ret_next {s t : State} (h : exec .ret s = .next t) :
    s.sp ≠ 0 ∧ s.slot (s.sp.toNat - 1) = some t.pc ∧ t = (s.setSp (s.sp - 1)).setPc t.pc := by
  rw [exec, execRet] at h
  split at h
  · cases h
  · next hsp =>
    split at h
    · next hslot => cases h; exact ⟨hsp, hslot, rfl⟩
    · cases h

/-- CALL pushes below 16 only and RET pops above 0 only, so `sp` never leaves 0..16. -/
theorem exec_keeps_sp_le {i : Instr} {s t : State} (h : exec i s = .next t) (hsp : s.sp.toNat ≤ 16) :
    t.sp.toNat ≤ 16 := by
  by_cases hcall : ∃ nnn, i = .call nnn
  · obtain ⟨nnn, rfl⟩ := hcall
    obtain ⟨hlt, rfl⟩ := exec_call_next h
    show (s.sp + 1).toNat ≤ 16
    bv_omega
  · by_cases hret : i = .ret
    · subst hret
      obtain ⟨hne, -, ht⟩ := exec_ret_next h
      rw [ht]
      show (s.sp - 1).toNat ≤ 16
      bv_omega
    · rwa [(exec_frame h).sp (fun nnn hi => hcall ⟨nnn, hi⟩) hret]

theorem exec_keeps_inv {i : Instr} {s t : State} (h : exec i s = .next t) (hs : s.Inv) : t.Inv := by
  obtain ⟨hwf, hI, hsp⟩ := hs
  exact ⟨exec_keeps_mem_wf h hwf, exec_keeps_I_lt h hI, exec_keeps_sp_le h hsp⟩

/-! ## What a step that answers a next state has run -/

/-- A cycle that answers a next state ran the decoded instruction to its end, or skipped an error. -/
theorem cycle_next_cases {s u : State} (h : cycle s = .next u) :
    (∃ i t, decode s.fetchWord = .ok i ∧ exec i s = .next t ∧ u = t.setStatus .ok) ∨
    ∃ f, u = (s.setPc (s.pc + 2)).setStatus (.error f) := by
  obtain ⟨t, ht, rfl⟩ | ⟨f, -, -, rfl⟩ := cycle_next h
  · cases hd : decode s.fetchWord with
    | ok i => exact .inl ⟨i, t, rfl, dispatchWord_of_ok hd ▸ ht, rfl⟩
    | error e => rw [dispatchWord_of_error hd] at ht; cases ht
  · exact .inr ⟨f, rfl⟩

/-- The state a cycle runs from is the state itself but for the schedule. -/
theorem CycleFrom.exists_setSchedule {s s' : State} (h : CycleFrom s s') : ∃ l, s' = s.setSchedule l := by
  obtain ⟨-, rfl⟩ | ⟨rest, -, rfl⟩ := h
  · exact ⟨s'.env.schedule, rfl⟩
  · exact ⟨rest, rfl⟩

/-- What one step to a next state is: an instruction run to its end, a skipped error, a tick or a keypad update, each
with the schedule changed and perhaps the status recorded. -/
theorem step_next_cases {s u : State} (h : step s = .next u) :
    (∃ i l t, Runs s i ∧ exec i (s.setSchedule l) = .next t ∧ u = t.setStatus .ok) ∨
    (∃ l f, u = ((s.setSchedule l).setPc (s.pc + 2)).setStatus (.error f)) ∨
    (∃ rest, s.env.schedule = .tick :: rest ∧ u = (s.setSchedule rest).tick) ∨
    ∃ mask rest, s.env.schedule = .keys mask :: rest ∧ u = (s.setSchedule rest).setKeypad mask := by
  have of_cycle : ∀ s', CycleFrom s s' → cycle s' = .next u →
      (∃ i l t, Runs s i ∧ exec i (s.setSchedule l) = .next t ∧ u = t.setStatus .ok) ∨
      ∃ l f, u = ((s.setSchedule l).setPc (s.pc + 2)).setStatus (.error f) := by
    intro s' hfrom hcycle
    obtain ⟨l, rfl⟩ := hfrom.exists_setSchedule
    obtain ⟨i, t, hd, ht, rfl⟩ | ⟨f, rfl⟩ := cycle_next_cases hcycle
    · exact .inl ⟨i, l, t, ⟨⟨_, hfrom⟩, hd⟩, ht, rfl⟩
    · exact .inr ⟨l, f, rfl⟩
  obtain ⟨hs, hc⟩ | ⟨rest, hs, hc⟩ | htick | hkeys := step_next h
  · exact (of_cycle s (.inl ⟨hs, rfl⟩) hc).imp_right .inl
  · exact (of_cycle _ (.inr ⟨rest, hs, rfl⟩) hc).imp_right .inl
  · exact .inr (.inr (.inl htick))
  · exact .inr (.inr (.inr hkeys))

/-- The invariant reads memory, `I` and `sp` alone, so the driver's events keep it. -/
theorem step_keeps_inv {s t : State} (hs : s.Inv) (h : step s = .next t) : t.Inv := by
  obtain ⟨i, l, t, -, ht, rfl⟩ | ⟨l, f, rfl⟩ | ⟨rest, -, rfl⟩ | ⟨mask, rest, -, rfl⟩ := step_next_cases h
  · exact (exec_keeps_inv ht hs :)
  all_goals exact hs

theorem run_keeps_inv (k : Nat) {s t : State} (hs : s.Inv) (h : Host.Core.run Sys2Proof.core k s = .next t) :
    t.Inv := by
  induction k generalizing s with
  | zero => cases h; exact hs
  | succ k ih =>
    rw [core_run_succ] at h
    split at h
    · next hstep => exact ih (step_keeps_inv hs hstep) h
    all_goals cases h

/-- Settles O37, by cases on what the step has run: each part of the invariant is kept by the part's own writers. -/
theorem everyStepKeepsTheInvariant : Obligations.EveryStepKeepsTheInvariant := fun _ _ => step_keeps_inv

/-- Settles O38, by induction on the number of steps. -/
theorem stackDepthNeverExceedsSixteen : Obligations.StackDepthNeverExceedsSixteen := by
  unfold Obligations.StackDepthNeverExceedsSixteen
  intro k s t hs h
  obtain ⟨-, hI, hsp⟩ := run_keeps_inv k hs h
  exact ⟨hsp, hI⟩

/-- Settles O36: no byte is listed after reset, and `I` and `sp` are 0. -/
theorem resetMeetsTheInvariant : Obligations.ResetMeetsTheInvariant :=
  ⟨reset_mem_wf, (by decide : (0 : Word).toNat < 4096), (by decide : (0 : Byte).toNat ≤ 16)⟩

end Sys2Proof.Machine
end

section
/-! Who writes what over a step (10_state.md R10, R12, R13, R17, R19, 60_exceptions.md R173), and O39 to O42, O44 and
O47. -/

namespace Sys2Proof.Machine

/-- One countdown step is the subtraction of naturals, which floors at 0 (R172). -/
theorem countDown_toNat (t : Byte) : (countDown t).toNat = t.toNat - 1 := by
  unfold countDown
  split
  · next h => subst h; rfl
  · next h => bv_omega

theorem countDown_le (t : Byte) : (countDown t).toNat ≤ t.toNat :=
  (countDown_toNat t).trans_le (Nat.sub_le _ _)

/-- The parts that only an instruction writes are as they were, and no timer rose. -/
structure StoreKept (s u : State) : Prop where
  mem : u.mem = s.mem
  V : u.V = s.V
  I : u.I = s.I
  stack : u.stack = s.stack
  sp : u.sp = s.sp
  fb : u.fb = s.fb
  dt : u.dt.toNat ≤ s.dt.toNat
  st : u.st.toNat ≤ s.st.toNat

/-- A step to a next state runs an instruction that leaves what it does not write, or, as a skipped error, a tick or a
keypad update, keeps the parts above. -/
theorem step_runs_or_keeps {s u : State} (h : step s = .next u) :
    (∃ i l t, Runs s i ∧ ExecFrame i (s.setSchedule l) t ∧ u = t.setStatus .ok) ∨ StoreKept s u := by
  obtain ⟨i, l, t, hr, ht, rfl⟩ | ⟨l, f, rfl⟩ | ⟨rest, -, rfl⟩ | ⟨mask, rest, -, rfl⟩ := step_next_cases h
  · exact .inl ⟨i, l, t, hr, exec_frame ht, rfl⟩
  · exact .inr ⟨rfl, rfl, rfl, rfl, rfl, rfl, le_rfl, le_rfl⟩
  · exact .inr ⟨rfl, rfl, rfl, rfl, rfl, rfl, countDown_le s.dt, countDown_le s.st⟩
  · exact .inr ⟨rfl, rfl, rfl, rfl, rfl, rfl, le_rfl, le_rfl⟩

/-! ## Memory, `I`, the stack and the screen -/

theorem runs_of_memRead_changed {s u : State} (h : step s = .next u) (hne : u.memRead ≠ s.memRead) :
    ∃ x, Runs s (.ldB x) ∨ Runs s (.storeRegs x) := by
  have hmem : u.mem ≠ s.mem := fun he => hne (by unfold State.memRead; rw [he])
  obtain ⟨i, l, t, hr, hf, rfl⟩ | hk := step_runs_or_keeps h
  · by_contra hno
    exact hmem (hf.mem fun x => ⟨by rintro rfl; exact hno ⟨x, .inl hr⟩, by rintro rfl; exact hno ⟨x, .inr hr⟩⟩)
  · exact absurd hk.mem hmem

theorem runs_of_I_changed {s u : State} (h : step s = .next u) (hne : u.I ≠ s.I) :
    (∃ nnn, Runs s (.ldI nnn)) ∨ ∃ x, Runs s (.addI x) ∨ Runs s (.ldF x) := by
  obtain ⟨i, l, t, hr, hf, rfl⟩ | hk := step_runs_or_keeps h
  · by_contra hno
    refine hne (hf.I (fun nnn => ?_) fun x => ⟨?_, ?_⟩)
    · rintro rfl; exact hno (.inl ⟨nnn, hr⟩)
    · rintro rfl; exact hno (.inr ⟨x, .inl hr⟩)
    · rintro rfl; exact hno (.inr ⟨x, .inr hr⟩)
  · exact absurd hk.I hne

theorem runs_of_slot_changed {s u : State} (h : step s = .next u) (hne : u.slot ≠ s.slot) :
    ∃ nnn, Runs s (.call nnn) := by
  have hstack : u.stack ≠ s.stack := fun he => hne (by unfold State.slot; rw [he])
  obtain ⟨i, l, t, hr, hf, rfl⟩ | hk := step_runs_or_keeps h
  · by_contra hno
    exact hstack (hf.stack fun nnn => by rintro rfl; exact hno ⟨nnn, hr⟩)
  · exact absurd hk.stack hstack

theorem runs_of_sp_changed {s u : State} (h : step s = .next u) (hne : u.sp ≠ s.sp) :
    (∃ nnn, Runs s (.call nnn)) ∨ Runs s .ret := by
  obtain ⟨i, l, t, hr, hf, rfl⟩ | hk := step_runs_or_keeps h
  · by_contra hno
    refine hne (hf.sp (fun nnn => ?_) ?_)
    · rintro rfl; exact hno (.inl ⟨nnn, hr⟩)
    · rintro rfl; exact hno (.inr hr)
  · exact absurd hk.sp hne

theorem runs_of_pixel_changed {s u : State} (h : step s = .next u) (hne : u.pixel ≠ s.pixel) :
    (∃ x y n, Runs s (.drw x y n)) ∨ Runs s .cls := by
  have hfb : u.fb ≠ s.fb := fun he => hne (by unfold State.pixel; rw [he])
  obtain ⟨i, l, t, hr, hf, rfl⟩ | hk := step_runs_or_keeps h
  · by_contra hno
    refine hfb (hf.fb (fun x y n => ?_) ?_)
    · rintro rfl; exact hno (.inl ⟨x, y, n, hr⟩)
    · rintro rfl; exact hno (.inr hr)
  · exact absurd hk.fb hfb

/-! ## Registers -/

/-- A register changes only under an instruction that can write it. -/
theorem runs_of_reg_changed {s u : State} {r : Nibble} (h : step s = .next u) (hne : u.reg r ≠ s.reg r) :
    ∃ i, Runs s i ∧ writesReg i r := by
  obtain ⟨i, l, t, hr, hf, rfl⟩ | hk := step_runs_or_keeps h
  · exact ⟨i, hr, by_contra fun hw => hne (hf.regs r hw)⟩
  · exact absurd (by unfold State.reg; simp only [hk.V]) hne

/-- The writers of a register other than VF: the destinations, and the block load. -/
theorem writer_of_writesReg {i : Instr} {r : Nibble} (hw : writesReg i r) (hr : r ≠ 0xF) :
    (∃ nn, i = .ldImm r nn) ∨ (∃ nn, i = .addImm r nn) ∨ (∃ nn, i = .rnd r nn) ∨
      (∃ y, i = .ldReg r y ∨ i = .orReg r y ∨ i = .andReg r y ∨ i = .xorReg r y ∨ i = .addReg r y ∨ i = .sub r y ∨
        i = .subn r y ∨ i = .shr r y ∨ i = .shl r y) ∨
      i = .ldVxDt r ∨ i = .ldVxK r ∨ ∃ x, i = .loadRegs x ∧ r.toNat ≤ x.toNat := by
  cases i with
  | ldImm x nn | addImm x nn | rnd x nn | ldReg x y | orReg x y | andReg x y | xorReg x y | ldVxDt x | ldVxK x =>
    obtain rfl : r = x := hw
    simp
  | addReg x y | sub x y | shr x y | subn x y | shl x y =>
    obtain rfl : r = x := hw.resolve_right hr
    simp
  | drw x y n => exact absurd hw hr
  | loadRegs x =>
    have hle : r.toNat ≤ x.toNat := hw
    simpa using hle
  | _ => exact hw.elim

/-- The writers of VF: the six flag writers, and the instructions whose destination it is; the block load reaches VF
only with `x = 15`. -/
theorem writer_of_writesReg_VF {i : Instr} (hw : writesReg i 0xF) :
    (∃ x y, i = .addReg x y ∨ i = .sub x y ∨ i = .subn x y ∨ i = .shr x y ∨ i = .shl x y ∨ ∃ n, i = .drw x y n) ∨
      (∃ nn, i = .ldImm 0xF nn ∨ i = .addImm 0xF nn ∨ i = .rnd 0xF nn) ∨
      (∃ y, i = .ldReg 0xF y ∨ i = .orReg 0xF y ∨ i = .andReg 0xF y ∨ i = .xorReg 0xF y) ∨
      i = .ldVxDt 0xF ∨ i = .ldVxK 0xF ∨ i = .loadRegs 0xF := by
  cases i with
  | ldImm x nn | addImm x nn | rnd x nn | ldReg x y | orReg x y | andReg x y | xorReg x y | ldVxDt x | ldVxK x =>
    obtain rfl : 0xF#4 = x := hw
    simp
  | addReg x y | sub x y | shr x y | subn x y | shl x y | drw x y n => simp
  | loadRegs x =>
    have hge : 15 ≤ x.toNat := hw
    obtain rfl : x = 0xF#4 := by bv_omega
    simp
  | _ => exact hw.elim

/-! ## The statements -/

/-- Settles O39: each of the four parts changes only under its own writers. -/
theorem memoryIndexAndStackHaveOnlyTheirWriters : Obligations.MemoryIndexAndStackHaveOnlyTheirWriters := fun _ _ h =>
  ⟨runs_of_memRead_changed h, runs_of_I_changed h, runs_of_slot_changed h, runs_of_sp_changed h⟩

/-- Settles O40: no instruction and no other event writes the keypad; the screen changes under its two writers. -/
theorem keypadAndScreenHaveOnlyTheirWriters : Obligations.KeypadAndScreenHaveOnlyTheirWriters := by
  unfold Obligations.KeypadAndScreenHaveOnlyTheirWriters
  refine fun s u h => ⟨fun hne => ?_, runs_of_pixel_changed h⟩
  obtain ⟨i, l, t, -, ht, rfl⟩ | ⟨l, f, rfl⟩ | ⟨rest, -, rfl⟩ | ⟨mask, rest, hs, rfl⟩ := step_next_cases h
  · exact absurd (exec_frame ht).keypad hne
  · exact absurd rfl hne
  · exact absurd rfl hne
  · exact ⟨rest, hs⟩

/-- Settles O41: the step ran a writer of the register, and of those only flags are written to VF. -/
theorem registersHaveOnlyTheirWriters : Obligations.RegistersHaveOnlyTheirWriters := by
  unfold Obligations.RegistersHaveOnlyTheirWriters
  intro s u r h hne hr
  obtain ⟨i, hi, hw⟩ := runs_of_reg_changed h hne
  exact ⟨i, hi, writer_of_writesReg hw hr⟩

/-- Settles O42: the step ran a writer of VF. -/
theorem flagRegisterHasOnlyItsWriters : Obligations.FlagRegisterHasOnlyItsWriters := by
  unfold Obligations.FlagRegisterHasOnlyItsWriters
  intro s u h hne
  obtain ⟨i, hi, hw⟩ := runs_of_reg_changed h hne
  exact ⟨i, hi, writer_of_writesReg_VF hw⟩

/-- Settles O44: an instruction writes nothing of the driver's side but the count of draws, and the driver's events
nothing but the schedule and the status. -/
theorem noStepChangesTheParameters : Obligations.NoStepChangesTheParameters := by
  unfold Obligations.NoStepChangesTheParameters
  intro s u h
  obtain ⟨i, l, t, -, ht, rfl⟩ | ⟨l, f, rfl⟩ | ⟨rest, -, rfl⟩ | ⟨mask, rest, -, rfl⟩ := step_next_cases h
  · exact (congrArg Env.config (exec_frame ht).env :)
  all_goals rfl

end Sys2Proof.Machine
end

section
/-! The timers and the driver's own events (60_exceptions.md R172 to R175), and O45 to O48. -/

namespace Sys2Proof.Machine

theorem runs_of_dt_raised {s u : State} (h : step s = .next u) (hlt : s.dt.toNat < u.dt.toNat) :
    ∃ x, Runs s (.ldDtVx x) := by
  obtain ⟨i, l, t, hr, hf, rfl⟩ | hk := step_runs_or_keeps h
  · by_contra hno
    have hkept : t.dt = s.dt := hf.dt fun x => by rintro rfl; exact hno ⟨x, hr⟩
    exact absurd hlt (by simp [hkept])
  · exact absurd hlt (not_lt_of_ge hk.dt)

theorem runs_of_st_raised {s u : State} (h : step s = .next u) (hlt : s.st.toNat < u.st.toNat) :
    ∃ x, Runs s (.ldStVx x) := by
  obtain ⟨i, l, t, hr, hf, rfl⟩ | hk := step_runs_or_keeps h
  · by_contra hno
    have hkept : t.st = s.st := hf.st fun x => by rintro rfl; exact hno ⟨x, hr⟩
    exact absurd hlt (by simp [hkept])
  · exact absurd hlt (not_lt_of_ge hk.st)

theorem step_of_tick {s : State} {rest : List Event} (h : s.env.schedule = .tick :: rest) :
    step s = .next (s.setSchedule rest).tick := by
  simp only [step, h]

theorem step_of_keys {s : State} {mask : Word} {rest : List Event} (h : s.env.schedule = .keys mask :: rest) :
    step s = .next ((s.setSchedule rest).setKeypad mask) := by
  simp only [step, h]

/-- Settles O45: the step is the tick, which counts both timers down. -/
theorem tickDecrementsBothTimers : Obligations.TickDecrementsBothTimers := fun s rest h =>
  ⟨(s.setSchedule rest).tick, step_of_tick h, countDown_toNat s.dt, countDown_toNat s.st, rfl⟩

/-- Settles O46, by induction on the number of ticks. -/
theorem ticksFloorAtZero : Obligations.TicksFloorAtZero := by
  unfold Obligations.TicksFloorAtZero
  intro k
  induction k with
  | zero =>
    intro s rest h
    exact ⟨s, rfl, rfl, rfl, by rw [show rest = s.env.schedule from h.symm]; rfl⟩
  | succ k ih =>
    intro s rest h
    obtain ⟨u, hstep, hdt, hst, hview⟩ :=
      tickDecrementsBothTimers s (List.replicate k .tick ++ rest) (by rw [h]; rfl)
    have henv : u.env = { s.env with schedule := List.replicate k .tick ++ rest } := congrArg View.env hview
    obtain ⟨t, hrun, hdt', hst', hview'⟩ := ih u rest (by rw [henv])
    refine ⟨t, ?_, by omega, by omega, ?_⟩
    · rw [core_run_succ, hstep]
      exact hrun
    · rw [hview', hview, henv]

/-- Settles O47: each timer rises only under its setter. -/
theorem timersRiseOnlyWhenSet : Obligations.TimersRiseOnlyWhenSet := fun _ _ h =>
  ⟨runs_of_dt_raised h, runs_of_st_raised h⟩

/-- Settles O48: the step is the update, which writes the keypad alone. -/
theorem keypadUpdateSetsTheMask : Obligations.KeypadUpdateSetsTheMask := fun s mask rest h =>
  ⟨(s.setSchedule rest).setKeypad mask, step_of_keys h, rfl⟩

end Sys2Proof.Machine
end

section
/-! The key skips, the offset jump and CALL (41_control_flow.md R104, R105, R107, R108), the index arithmetic
(42_memory_index.md R121, R122), the key wait (43_timer_keypad.md R138), CLS and RND (45_unsourced_cls_rnd.md R155,
R156), and O9, O11, O12, O15, O20, O23 and O24. -/

namespace Sys2Proof.Machine

/-- Settles O9: both meanings are skips on the key's bit, SKNP's negated. -/
theorem keySkipsTestOneBitOfTheKeypad : Obligations.KeySkipsTestOneBitOfTheKeypad := by
  unfold Obligations.KeySkipsTestOneBitOfTheKeypad
  intro s x
  refine ⟨⟨Laws.RoundTrip.skp x rfl, completes_of_skip_when ?_⟩,
    ⟨Laws.RoundTrip.sknp x rfl, completes_of_skip_unless ?_⟩⟩
  · rw [Bool.decide_eq_true]; rfl
  · rw [Bool.decide_eq_true]; rfl

/-- Settles O11: the meaning is a jump, and the sum in 16 bits is the sum of the naturals. -/
theorem offsetJumpKeepsTheWholeSum : Obligations.OffsetJumpKeepsTheWholeSum := by
  unfold Obligations.OffsetJumpKeepsTheWholeSum
  intro s nnn
  have htarget : nnn.setWidth 16 + (s.reg 0).setWidth 16 = BitVec.ofNat 16 (nnn.toNat + (s.reg 0).toNat) := by
    rw [BitVec.ofNat_add, BitVec.ofNat_toNat, BitVec.ofNat_toNat]
  exact ⟨Laws.RoundTrip.jpV0 nnn rfl, completes_of_jump rfl htarget⟩

/-- CALL on a stack that is not full: the push and the jump. -/
theorem exec_call_of_lt {s : State} (nnn : Addr) (h : s.sp.toNat < 16) :
    exec (.call nnn) s = .next ((s.push (s.pc + 2)).setPc (nnn.setWidth 16)) := by
  simp only [exec, execCall, if_neg (Nat.not_le_of_lt h), complete_suppress]

/-- Settles O12: the push and the jump, and the overflow with CALL's own word. -/
theorem callPushesTheReturnAddress : Obligations.CallPushesTheReturnAddress := by
  unfold Obligations.CallPushesTheReturnAddress
  refine fun s nnn => ⟨Laws.RoundTrip.call nnn rfl, fun hlt => ?_, fun hge => ?_⟩
  · refine ⟨_, exec_call_of_lt nnn hlt, ?_⟩
    rw [view_setPc, view_push s _ hlt, BitVec.ofNat_toNat]
  · exact (exec_call_fault_iff nnn s _).2 ⟨hge, rfl⟩

/-- An instruction whose meaning is one write of `I` moves `pc` by 2 and changes nothing else. -/
theorem completes_of_setI {i : Instr} {s : State} {w : Word} (h : exec i s = complete .advance (s.setI w)) :
    Completes i s { view s with I := w, pc := s.pc + 2 } :=
  completes_of_advance h (view_setI s w)

/-- Settles O15: each meaning is one write of `I`. -/
theorem indexRegisterArithmetic : Obligations.IndexRegisterArithmetic := fun _ x =>
  ⟨⟨Laws.RoundTrip.addI x rfl, completes_of_setI rfl⟩, ⟨Laws.RoundTrip.ldF x rfl, completes_of_setI rfl⟩⟩

/-- With no key down the handler's 2 off `pc` and the base advance cancel. -/
theorem exec_ldVxK_of_no_key {s : State} (x : Nibble) (h : s.keypad = 0) : exec (.ldVxK x) s = .next s := by
  have hpc : s.pc - 2 + 2 = s.pc := BitVec.sub_add_cancel s.pc 2
  have hs : (s.setPc (s.pc - 2)).setPc (s.pc - 2 + 2) = s := by rw [hpc]; rfl
  simpa only [exec, execLdVxK, (lowestKey_spec s.keypad).1.2 h, complete_advance, State.setPc_pc] using
    congrArg Host.Outcome.next hs

/-- With a key down the key wait is one register write, of the lowest key. -/
theorem exec_ldVxK_of_lowestKey {s : State} {k : Nat} (x : Nibble) (h : lowestKey s.keypad = some k) :
    exec (.ldVxK x) s = complete .advance (s.setReg x (BitVec.ofNat 8 k)) := by
  simp only [exec, execLdVxK, h]

/-- Settles O20: by whether there is a lowest key. -/
theorem keyWaitTakesTheLowestKey : Obligations.KeyWaitTakesTheLowestKey := by
  unfold Obligations.KeyWaitTakesTheLowestKey
  refine fun s x => ⟨Laws.RoundTrip.ldVxK x rfl, fun h0 => ⟨s, exec_ldVxK_of_no_key x h0, rfl⟩, fun hne => ?_⟩
  obtain ⟨hnone, hsome⟩ := lowestKey_spec s.keypad
  obtain ⟨k, hk⟩ := Option.ne_none_iff_exists'.1 (mt hnone.1 hne)
  obtain ⟨hlt, hdown, hleast⟩ := (hsome k).1 hk
  exact ⟨k, hlt, hdown, hleast, completes_of_setReg (exec_ldVxK_of_lowestKey x hk)⟩

/-- An unset screen has no pixel set. -/
theorem fbPixel_unset : fbPixel (Vector.replicate 32 0) = fun _ _ => false := by
  funext x y
  simp [fbPixel]

/-- Settles O23: admitted, the meaning replaces the screen; not admitted, it raises the error with CLS's own word. -/
theorem clearScreen : Obligations.ClearScreen := by
  unfold Obligations.ClearScreen
  refine ⟨rfl, fun s => ⟨fun hadmit => ?_, fun hno => (exec_cls_fault_iff s _).2 ⟨hno, rfl⟩⟩⟩
  have hexec : exec .cls s = complete .advance (s.setFb (Vector.replicate 32 0)) := by
    simp only [exec, execCls, if_pos hadmit]
  have hview : view (s.setFb (Vector.replicate 32 0)) = { view s with pixel := fun _ _ => false } := by
    rw [view_setFb, fbPixel_unset]
  exact completes_of_advance hexec hview

/-- Settles O24: admitted, the meaning writes the register and the count of draws; not admitted, it raises the error
with RND's own word. -/
theorem randomByteUnderMask : Obligations.RandomByteUnderMask := by
  unfold Obligations.RandomByteUnderMask
  refine fun s x nn => ⟨Laws.RoundTrip.rnd x nn rfl, fun hadmit => ?_,
    fun hno => (exec_rnd_fault_iff x nn s _).2 ⟨hno, rfl⟩⟩
  have hexec : exec (.rnd x nn) s = complete .advance
      ((s.setReg x (Config.draw8 s.env.draws &&& nn)).setEnv { s.env with draws := s.env.draws + 1 }) := by
    simp only [exec, execRnd, if_pos hadmit]
  exact completes_of_advance hexec (by rw [view_setEnv, view_setReg])

end Sys2Proof.Machine
end

section
/-! The cycle and what the driver does with its status (30_encoding.md R62, 60_exceptions.md R160 to R167), and O30, O31
and O33 to O35. -/

namespace Sys2Proof.Machine

/-! ## A step that asks for a cycle -/

theorem step_of_cycleFrom {s s' : State} (h : CycleFrom s s') : step s = cycle s' := by
  obtain ⟨hs, rfl⟩ | ⟨rest, hs, rfl⟩ := h <;> simp only [step, hs]

/-- The test of a cycle for an odd `pc` (10_state.md R22) in terms of `fetchable`. -/
theorem strict_odd_iff (s : State) :
    (s.env.config.strictEvenPc && s.pc.getLsbD 0) = true ↔ ¬s.fetchable := by
  have hbit : s.pc.getLsbD 0 = true ↔ s.pc.toNat % 2 = 1 := by
    rw [← BitVec.testBit_toNat, Nat.testBit_zero, decide_eq_true_eq]
  rw [Bool.and_eq_true, hbit, State.fetchable, not_or, Bool.not_eq_false, Nat.mod_two_not_eq_zero]

theorem cycle_of_fetchable {s : State} (h : s.fetchable) : cycle s = afterCycle s (dispatchWord s) :=
  if_neg fun ho => (strict_odd_iff s).1 ho h

theorem cycle_of_not_fetchable {s : State} (h : ¬s.fetchable) : cycle s = .refused .oddPc :=
  if_pos ((strict_odd_iff s).2 h)

theorem afterCycle_fault_halt {s : State} (f : Fault) (h : s.env.config.driverOnError = .halt) :
    afterCycle s (.fault f) = .fault f := by
  simp only [afterCycle, h]

theorem afterCycle_fault_skip {s : State} (f : Fault) (h : s.env.config.driverOnError = .skip) :
    afterCycle s (.fault f) = .next ((s.setPc (s.pc + 2)).setStatus (.error f)) := by
  simp only [afterCycle, h]

/-- A step that asks for a cycle at a fetchable `pc` is the dispatch and what the driver does with its status. -/
theorem step_of_fetchable {s s' : State} (hfrom : CycleFrom s s') (hfetch : s'.fetchable) :
    step s = afterCycle s' (dispatchWord s') :=
  (step_of_cycleFrom hfrom).trans (cycle_of_fetchable hfetch)

/-- Settles O30: the dispatch is `exec i`, and each of its outcomes is handled by its own case of `afterCycle`. -/
theorem stepRunsTheDecodedInstruction : Obligations.StepRunsTheDecodedInstruction := by
  unfold Obligations.StepRunsTheDecodedInstruction
  intro s s' i hfrom hfetch _ hdecode
  have hstep : step s = afterCycle s' (exec i s') := by
    rw [step_of_fetchable hfrom hfetch, dispatchWord_of_ok hdecode]
  refine ⟨fun t ht => ?_, fun f hf => ⟨fun hhalt => ?_, fun hskip => ?_⟩, fun r hr => ?_⟩
  · rw [hstep, ht]; rfl
  · rw [hstep, hf, afterCycle_fault_halt f hhalt]
  · rw [hstep, hf, afterCycle_fault_skip f hskip]
  · rw [hstep, hr]; rfl

/-- Settles O31: the dispatch is the fallback's error, which either stands or is skipped. -/
theorem illegalWordIsReported : Obligations.IllegalWordIsReported := by
  unfold Obligations.IllegalWordIsReported
  intro s s' e hfrom hfetch hdecode
  have hstep : step s = afterCycle s' (.fault (.unimplementedOpcode s'.fetchWord s'.pc)) := by
    rw [step_of_fetchable hfrom hfetch, dispatchWord_of_error hdecode]
  refine ⟨fun hhalt => ?_, fun hskip => ⟨_, hstep.trans (afterCycle_fault_skip _ hskip), ?_⟩⟩
  · rw [hstep, afterCycle_fault_halt _ hhalt]
  · rw [view_setStatus, view_setPc, State.setPc_env]

/-- Settles O33: the fallback records the word itself, and an instruction the word of its encoding, which is the word it
was decoded from. -/
theorem errorInformationIsTheFetchedWord : Obligations.ErrorInformationIsTheFetchedWord := by
  unfold Obligations.ErrorInformationIsTheFetchedWord
  intro s f h
  cases hd : decode s.fetchWord with
  | error e =>
    rw [dispatchWord_of_error hd] at h
    cases h
    exact .inl rfl
  | ok i =>
    rw [dispatchWord_of_ok hd, errorsAreRaisedExactlyThere i s, encode_of_decode hd] at h
    obtain ⟨-, -, -, hf⟩ | ⟨-, -, hf⟩ | ⟨-, -, hf⟩ := h
    · exact .inr (.inl hf)
    · exact .inr (.inr hf)
    · exact .inl hf

/-! ## Refusals and progress -/

/-- RET with a slot to pop is not refused. -/
theorem exec_ret_ne_refused {s : State} (hsp : s.sp.toNat ≤ 16) (r : Refusal) : exec .ret s ≠ .refused r := by
  obtain ⟨target, hslot⟩ := exists_newest_slot hsp
  rw [exec, execRet]
  split
  · nofun
  · simp [hslot]

/-- With `sp` in 0..16 no instruction is refused: only RET has a refusal. -/
theorem exec_ne_refused {s : State} (hsp : s.sp.toNat ≤ 16) (i : Instr) (r : Refusal) : exec i s ≠ .refused r := by
  cases i with
  | ret => exact exec_ret_ne_refused hsp r
  | call nnn => rw [exec, execCall]; split <;> nofun
  | cls => rw [exec, execCls]; split <;> nofun
  | rnd x nn => rw [exec, execRnd]; split <;> nofun
  | ldVxK x => rw [exec, execLdVxK]; split <;> nofun
  | _ => nofun

theorem dispatchWord_ne_refused {s : State} (hsp : s.sp.toNat ≤ 16) (r : Refusal) : dispatchWord s ≠ .refused r := by
  cases hd : decode s.fetchWord with
  | error e => rw [dispatchWord_of_error hd]; nofun
  | ok i => rw [dispatchWord_of_ok hd]; exact exec_ne_refused hsp i r

/-- The driver's handling of a status adds no refusal. -/
theorem afterCycle_ne_refused {s : State} {o : Host.Outcome State Fault Refusal} {r : Refusal}
    (h : o ≠ .refused r) : afterCycle s o ≠ .refused r := by
  cases o with
  | next t => nofun
  | fault f => rw [afterCycle]; split <;> nofun
  | refused r' => exact h

theorem cycle_refused_iff {s : State} (hsp : s.sp.toNat ≤ 16) (r : Refusal) :
    cycle s = .refused r ↔ ¬s.fetchable ∧ r = .oddPc := by
  by_cases hf : s.fetchable
  · rw [cycle_of_fetchable hf]
    exact iff_of_false (afterCycle_ne_refused (dispatchWord_ne_refused hsp r)) fun h => h.1 hf
  · rw [cycle_of_not_fetchable hf, Host.Outcome.refused.injEq, eq_comm]
    exact (and_iff_right hf).symm

/-- A step asks for a cycle, or answers a next state. -/
theorem step_cycle_or_next (s : State) : (∃ s', CycleFrom s s') ∨ ∃ t, step s = .next t := by
  cases hs : s.env.schedule with
  | nil => exact .inl ⟨s, .inl ⟨hs, rfl⟩⟩
  | cons e rest =>
    cases e with
    | cycle => exact .inl ⟨_, .inr ⟨rest, hs, rfl⟩⟩
    | tick => exact .inr ⟨_, step_of_tick hs⟩
    | keys mask => exact .inr ⟨_, step_of_keys hs⟩

/-- Settles O34: a tick or a keypad update is never refused, and a cycle exactly for an odd `pc`. -/
theorem onlyAStrictOddCycleIsRefused : Obligations.OnlyAStrictOddCycleIsRefused := by
  unfold Obligations.OnlyAStrictOddCycleIsRefused
  rintro s r ⟨-, -, hsp⟩
  have hiff : ∀ s', CycleFrom s s' → (step s = .refused r ↔
      s.env.config.strictEvenPc = true ∧ s.pc.toNat % 2 = 1 ∧ r = .oddPc) := by
    intro s' hfrom
    obtain ⟨l, rfl⟩ := hfrom.exists_setSchedule
    rw [step_of_cycleFrom hfrom, cycle_refused_iff (s := s.setSchedule l) hsp]
    simp [and_assoc]
  constructor
  · intro h
    obtain ⟨s', hfrom⟩ | ⟨t, ht⟩ := step_cycle_or_next s
    · exact ⟨⟨s', hfrom⟩, (hiff s' hfrom).1 h⟩
    · rw [ht] at h; cases h
  · rintro ⟨⟨s', hfrom⟩, h⟩
    exact (hiff s' hfrom).2 h

/-- Settles O35: a cycle at a fetchable `pc` is not refused, and its error is skipped. -/
theorem skippingDriverAlwaysGoesOn : Obligations.SkippingDriverAlwaysGoesOn := by
  unfold Obligations.SkippingDriverAlwaysGoesOn
  rintro s ⟨-, -, hsp⟩ hfetch hskip
  obtain ⟨s', hfrom⟩ | hnext := step_cycle_or_next s
  · obtain ⟨l, rfl⟩ := hfrom.exists_setSchedule
    rw [step_of_fetchable hfrom hfetch]
    cases hd : dispatchWord (s.setSchedule l) with
    | next t => exact ⟨_, rfl⟩
    | fault f => exact ⟨_, afterCycle_fault_skip f hskip⟩
    | refused r => exact absurd hd (dispatchWord_ne_refused (s := s.setSchedule l) hsp r)
  · exact hnext

end Sys2Proof.Machine
end

section
/-! The net effect of every instruction on `pc` (10_state.md R21), and O43. -/

namespace Sys2Proof.Machine

/-- What an instruction leaves in `pc`, read off the view of the state it completes in. -/
theorem pc_of_completes {i : Instr} {s t : State} {v : View} (h : exec i s = .next t) (hc : Completes i s v) :
    t.pc = v.pc := by
  obtain ⟨t', ht', rfl⟩ := hc
  cases h.symm.trans ht'
  rfl

/-- The value of an address in `pc`. -/
theorem setWidth_addr_toNat (nnn : Addr) : (nnn.setWidth 16).toNat = nnn.toNat := by
  have hlt := nnn.isLt
  rw [BitVec.toNat_setWidth, Nat.mod_eq_of_lt (by omega)]

theorem pc_of_jump {i : Instr} {s t : State} {nnn : Addr} (h : exec i s = .next t)
    (hi : i = .jp nnn ∨ i = .sys nnn ∨ i = .call nnn) : t.pc.toNat = nnn.toNat := by
  rw [← setWidth_addr_toNat nnn]
  obtain rfl | rfl | rfl := hi
  · cases h; rfl
  · cases h; rfl
  · rw [(exec_call_next h).2]; rfl

/-- The sum of the offset jump is at most 0x10FE, so `pc` holds it whole. -/
theorem pc_of_jpV0 {s t : State} {nnn : Addr} (h : exec (.jpV0 nnn) s = .next t) :
    t.pc.toNat = nnn.toNat + (s.reg 0).toNat := by
  have hnnn := nnn.isLt
  have hreg := (s.reg 0).isLt
  rw [pc_of_completes h (offsetJumpKeepsTheWholeSum s nnn).2]
  show (BitVec.ofNat 16 (nnn.toNat + (s.reg 0).toNat)).toNat = _
  rw [BitVec.toNat_ofNat, Nat.mod_eq_of_lt (by omega)]

/-- The meaning of a skip instruction is the skip on its condition. -/
theorem exec_of_skipCondition {i : Instr} {s : State} {c : Bool} (hc : skipCondition i s = some c) :
    exec i s = complete .advance (s.skipIf c) := by
  cases i with
  | seImm x nn | seReg x y n | skp x | sknp x => cases hc; rfl
  | sneImm x nn | sneReg x y n => cases hc; rw [decide_not]; rfl
  | _ => cases hc

theorem pc_of_skip {i : Instr} {s t : State} {c : Bool} (h : exec i s = .next t) (hc : skipCondition i s = some c) :
    t.pc = if c then s.pc + 4 else s.pc + 2 :=
  pc_of_completes h (completes_of_skipIf (exec_of_skipCondition hc))

theorem pc_of_ldVxK {s t : State} {x : Nibble} (h : exec (.ldVxK x) s = .next t) :
    t.pc = if s.keypad = 0 then s.pc else s.pc + 2 := by
  obtain ⟨-, hno, hkey⟩ := keyWaitTakesTheLowestKey s x
  by_cases h0 : s.keypad = 0
  · rw [if_pos h0, pc_of_completes h (hno h0)]; rfl
  · obtain ⟨k, -, -, -, hc⟩ := hkey h0
    rw [if_neg h0, pc_of_completes h hc]

/-- An instruction that neither jumps, skips nor waits leaves `pc` to the base advance. -/
theorem pc_of_other {i : Instr} {s t : State} (h : exec i s = .next t)
    (hjump : ∀ nnn, i ≠ .jp nnn ∧ i ≠ .sys nnn ∧ i ≠ .call nnn ∧ i ≠ .jpV0 nnn) (hret : i ≠ .ret)
    (hskip : skipCondition i s = none) (hwait : ∀ x, i ≠ .ldVxK x) : t.pc = s.pc + 2 := by
  cases i with
  | jp nnn | sys nnn | call nnn | jpV0 nnn => exact absurd (hjump nnn) (by simp)
  | ret => exact absurd rfl hret
  | seImm x nn | sneImm x nn | seReg x y n | sneReg x y n | skp x | sknp x => cases hskip
  | ldVxK x => exact absurd rfl (hwait x)
  | cls =>
    rw [exec, execCls] at h
    split at h <;> cases h
    rfl
  | rnd x nn =>
    rw [exec, execRnd] at h
    split at h <;> cases h
    rfl
  | storeRegs x =>
    obtain ⟨-, u, hu, -, -, hview⟩ := blockStoreWritesExactlyItsBytes s x
    exact pc_of_completes h ⟨u, hu, hview⟩
  | loadRegs x => exact pc_of_completes h (blockLoadWritesExactlyItsRegisters s x).2
  | _ => cases h; rfl

/-- Settles O43: one clause per way of leaving `pc`. -/
theorem netProgramCounter : Obligations.NetProgramCounter := by
  unfold Obligations.NetProgramCounter
  refine fun i s t h => ⟨fun nnn => pc_of_jump h, fun nnn hi => ?_, fun hi => ?_, fun c => pc_of_skip h,
    fun x hi => ?_, pc_of_other h⟩
  · subst hi; exact pc_of_jpV0 h
  · subst hi; exact (exec_ret_next h).2.1
  · subst hi; exact pc_of_ldVxK h

end Sys2Proof.Machine
end

section
/-! What DRW leaves (44_draw.md R145 to R148), and O21 and O22. -/

namespace Sys2Proof.Machine

/-- A sprite is no higher than the grid. -/
theorem height_le (n : Nibble) : n.toNat ≤ 32 := n.isLt.le.trans (by decide)

/-- On a pixel of the sprite's own rectangle the picture shows the sprite's bit. -/
theorem spriteOn_at (s : State) (ox oy : Nat) {n r c : Nat} (hr : r < n) (hn : n ≤ 32) (hc : c < 8) :
    s.spriteOn ox oy n (ox + c) (oy + r) = s.spriteBit r c := by
  unfold State.spriteOn
  rw [(col_eq_iff ox (ox + c) c (by omega)).1 rfl, (row_eq_iff oy (oy + r) r (by omega)).1 rfl]
  simp [hr, hc]

/-- A pixel the picture shows set lies in the sprite's rectangle. -/
theorem exists_of_spriteOn {s : State} {ox oy n x y : Nat} (hn : n ≤ 32)
    (h : s.spriteOn ox oy n x y = true) :
    ∃ r < n, ∃ c < 8, x % 64 = (ox + c) % 64 ∧ y % 32 = (oy + r) % 32 := by
  simp only [State.spriteOn, Bool.and_eq_true, decide_eq_true_eq] at h
  obtain ⟨⟨hc, hr⟩, -⟩ := h
  exact ⟨_, hr, _, hc, (col_eq_iff ox x _ (by omega)).2 rfl, (row_eq_iff oy y _ (hr.trans_le hn)).2 rfl⟩

/-- What DRW leaves: the screen XORed with the sprite's picture, the collision in VF, `pc` 2 further, and everything
else as it was. -/
theorem exec_drw_next {s t : State} {x y n : Nibble} (h : exec (.drw x y n) s = .next t) :
    (∀ px py, t.pixel px py = (s.pixel px py ^^ s.spriteOn (s.reg x).toNat (s.reg y).toNat n.toNat px py)) ∧
    (t.reg 0xF = 0 ∨ t.reg 0xF = 1) ∧
    (t.reg 0xF = 1 ↔ ∃ r < n.toNat, ∃ c < 8, s.spriteBit r c = true ∧
      s.pixel ((s.reg x).toNat + c) ((s.reg y).toNat + r) = true) ∧
    view t = { view s with
      regs := fun r => if r = 0xF then t.reg 0xF else s.reg r
      pixel := t.pixel
      pc := s.pc + 2 } := by
  obtain ⟨hpixel, hflag⟩ := drawSprite_spec s (s.reg x).toNat (s.reg y).toNat n.toNat (height_le n)
  obtain ⟨fb, flag, hdrawn⟩ : ∃ fb flag, drawSprite s (s.reg x).toNat (s.reg y).toNat n.toNat = (fb, flag) :=
    ⟨_, _, rfl⟩
  rw [hdrawn] at hpixel hflag
  have ht : t = ((s.setFb fb).setReg VF (flagByte flag)).setPc (s.pc + 2) := by
    rw [exec, execDrw, hdrawn] at h
    cases h
    rfl
  have hscreen : t.pixel = fbPixel fb := by rw [ht]; rfl
  have hVF : t.reg 0xF = flagByte flag := by rw [ht, State.setPc_reg, reg_setReg]; rfl
  obtain ⟨hbyte, hone⟩ := flagByte_spec flag
  refine ⟨fun px py => hscreen ▸ hpixel px py, hVF ▸ hbyte, hVF ▸ hone.trans hflag, ?_⟩
  rw [hVF, hscreen, ht, view_setPc, view_setReg, view_setFb]
  rfl

/-- A pixel that DRW changes lies in the sprite's rectangle. -/
theorem exists_of_drw_pixel_ne {s t : State} {x y n : Nibble} (h : exec (.drw x y n) s = .next t) {px py : Nat}
    (hne : t.pixel px py ≠ s.pixel px py) :
    ∃ r < n.toNat, ∃ c < 8, px % 64 = ((s.reg x).toNat + c) % 64 ∧ py % 32 = ((s.reg y).toNat + r) % 32 := by
  obtain ⟨hpixel, -⟩ := exec_drw_next h
  have hon : s.spriteOn (s.reg x).toNat (s.reg y).toNat n.toNat px py = true :=
    Bool.eq_true_of_not_eq_false fun hoff => hne (by rw [hpixel, hoff, Bool.xor_false])
  exact exists_of_spriteOn (height_le n) hon

/-- Settles O21: inside the sprite's rectangle its picture is the sprite's bit, and no pixel outside changes. -/
theorem drawXorsTheSpriteAndReportsCollision : Obligations.DrawXorsTheSpriteAndReportsCollision := by
  unfold Obligations.DrawXorsTheSpriteAndReportsCollision
  refine fun s x y n => ⟨Laws.RoundTrip.drw x y n rfl, _, rfl, ?_⟩
  have h : exec (.drw x y n) s = .next _ := rfl
  obtain ⟨hpixel, hbyte, hflag, hview⟩ := exec_drw_next h
  refine ⟨fun r hr c hc => ?_, fun px py hout => by_contra fun hne => ?_, hbyte, hflag, hview⟩
  · rw [hpixel, spriteOn_at s _ _ hr (height_le n) hc, State.spriteBit]
  · obtain ⟨r, hr, c, hc, hin⟩ := exists_of_drw_pixel_ne h hne
    exact hout r hr c hc hin

/-- DRW changes neither memory nor `I`, so a second draw reads the same sprite. -/
theorem spriteBit_of_drw {s t : State} {x y n : Nibble} (h : exec (.drw x y n) s = .next t) :
    t.spriteBit = s.spriteBit := by
  obtain ⟨-, -, -, hview⟩ := exec_drw_next h
  have hmem : t.memRead = s.memRead := congrArg View.byte hview
  have hI : t.I = s.I := congrArg View.I hview
  unfold State.spriteBit
  rw [hmem, hI]

/-- The second of two draws at one origin XORs the same picture, so the two cancel. -/
theorem pixel_of_drw_twice {s t u : State} {x y n : Nibble} (hst : exec (.drw x y n) s = .next t)
    (htu : exec (.drw x y n) t = .next u) (hx : t.reg x = s.reg x) (hy : t.reg y = s.reg y) : u.pixel = s.pixel := by
  obtain ⟨hpixel, -⟩ := exec_drw_next hst
  obtain ⟨hpixel', -⟩ := exec_drw_next htu
  have hpicture : t.spriteOn = s.spriteOn := by
    unfold State.spriteOn
    rw [spriteBit_of_drw hst]
  funext px py
  rw [hpixel', hpixel, hx, hy, hpicture, Bool.xor_assoc, Bool.xor_self, Bool.xor_false]

/-- The first draw inverts the pixels under the sprite's 1 bits, so the second collides where they were unset. -/
theorem collision_of_drw_twice {s t u : State} {x y n : Nibble} (hst : exec (.drw x y n) s = .next t)
    (htu : exec (.drw x y n) t = .next u) (hx : t.reg x = s.reg x) (hy : t.reg y = s.reg y) :
    u.reg 0xF = 1 ↔ ∃ r < n.toNat, ∃ c < 8, s.spriteBit r c = true ∧
      s.pixel ((s.reg x).toNat + c) ((s.reg y).toNat + r) = false := by
  obtain ⟨hpixel, -⟩ := exec_drw_next hst
  obtain ⟨-, -, hflag, -⟩ := exec_drw_next htu
  have hflip : ∀ r < n.toNat, ∀ c < 8, s.spriteBit r c = true →
      t.pixel ((s.reg x).toNat + c) ((s.reg y).toNat + r) =
        !s.pixel ((s.reg x).toNat + c) ((s.reg y).toNat + r) := by
    intro r hr c hc hset
    rw [hpixel, spriteOn_at s _ _ hr (height_le n) hc, hset, Bool.xor_true]
  rw [hflag, spriteBit_of_drw hst, hx, hy]
  refine exists_congr fun r => and_congr_right fun hr => exists_congr fun c => and_congr_right fun hc =>
    and_congr_right fun hset => ?_
  rw [hflip r hr c hc hset, Bool.not_eq_true']

/-- Settles O22: (a) is the two lemmas above; (b) every pixel that changes lies in the sprite's rectangle. -/
theorem drawTwiceRestoresTheScreen : Obligations.DrawTwiceRestoresTheScreen := by
  unfold Obligations.DrawTwiceRestoresTheScreen
  refine ⟨fun s t u x y n hst htu hx hy => ?_, fun s t x y hx hy h px hpx py hpy hne => ?_⟩
  · exact ⟨pixel_of_drw_twice hst htu hx hy, collision_of_drw_twice hst htu hx hy⟩
  · obtain ⟨r, hr, c, hc, hcol, hrow⟩ := exists_of_drw_pixel_ne h hne
    have hr2 : r < 2 := hr
    have hox : (s.reg x).toNat = 63 := by rw [hx]; rfl
    have hoy : (s.reg y).toNat = 31 := by rw [hy]; rfl
    omega

end Sys2Proof.Machine
end

section
/-! What no instruction reads: the sound timer (10_state.md R16) and the stack slots out of use (R18); CALL and RET as a
pair (41_control_flow.md R108, R109); and O49 to O51. -/

namespace Sys2Proof.Machine

/-- The state with another sound timer and other stack slots. -/
def State.setHidden (s : State) (b : Byte) (stack : Vector Word 16) : State := { s with st := b, stack := stack }

theorem skipIf_setHidden (s : State) (b : Byte) (v : Vector Word 16) (c : Bool) :
    (s.setHidden b v).skipIf c = (s.skipIf c).setHidden b v := by
  cases c <;> rfl

theorem storeFirst_setHidden (s : State) (b : Byte) (v : Vector Word 16) (k : Nat) :
    (s.setHidden b v).storeFirst k = (s.storeFirst k).setHidden b v := by
  induction k with
  | zero => rfl
  | succ k ih => rw [State.storeFirst, ih]; rfl

theorem loadFirst_setHidden (s : State) (b : Byte) (v : Vector Word 16) (k : Nat) :
    (s.setHidden b v).loadFirst k = (s.loadFirst k).setHidden b v := by
  induction k with
  | zero => rfl
  | succ k ih => rw [State.loadFirst, ih]; rfl

/-- Every instruction but LD ST, CALL and RET runs alike whatever the sound timer and the stack slots hold, and leaves
them. -/
theorem exec_setHidden {i : Instr} (hst : ∀ x, i ≠ .ldStVx x) (hcall : ∀ nnn, i ≠ .call nnn) (hret : i ≠ .ret)
    {s t : State} (h : exec i s = .next t) (b : Byte) (v : Vector Word 16) :
    exec i (s.setHidden b v) = .next (t.setHidden b v) := by
  cases i with
  | ldStVx x => exact absurd rfl (hst x)
  | call nnn => exact absurd rfl (hcall nnn)
  | ret => exact absurd rfl hret
  | cls =>
    rw [exec, execCls] at h
    split at h <;> cases h
    next hadmit => exact if_pos hadmit
  | rnd x nn =>
    rw [exec, execRnd] at h
    split at h <;> cases h
    next hadmit => exact if_pos hadmit
  | ldVxK x =>
    cases hk : lowestKey s.keypad with
    | none =>
      have h0 : s.keypad = 0 := (lowestKey_spec s.keypad).1.1 hk
      rw [exec_ldVxK_of_no_key x h0] at h
      cases h
      exact exec_ldVxK_of_no_key x h0
    | some k =>
      rw [exec_ldVxK_of_lowestKey x hk] at h
      cases h
      exact exec_ldVxK_of_lowestKey x hk
  | seImm x nn | sneImm x nn | seReg x y n | sneReg x y n | skp x | sknp x =>
    cases h
    exact congrArg (complete .advance) (skipIf_setHidden s b v _)
  | storeRegs x =>
    cases h
    exact congrArg (complete .advance) (storeFirst_setHidden s b v _)
  | loadRegs x =>
    cases h
    exact congrArg (complete .advance) (loadFirst_setHidden s b v _)
  | _ => cases h; rfl

/-- Every instruction but LD ST runs alike whatever the sound timer holds, and leaves it. -/
theorem exec_setSt {i : Instr} (hst : ∀ x, i ≠ .ldStVx x) {s t : State} (h : exec i s = .next t) (b : Byte) :
    exec i (s.setSt b) = .next (t.setSt b) := by
  by_cases hcall : ∃ nnn, i = .call nnn
  · obtain ⟨nnn, rfl⟩ := hcall
    obtain ⟨hlt, rfl⟩ := exec_call_next h
    exact exec_call_of_lt nnn hlt
  by_cases hret : i = .ret
  · subst hret
    obtain ⟨hne, hslot, ht⟩ := exec_ret_next h
    rw [ht]
    exact exec_ret_of_slot hne hslot
  have hcall' : ∀ nnn, i ≠ .call nnn := fun nnn hi => hcall ⟨nnn, hi⟩
  have hkept : t.setSt b = t.setHidden b s.stack := by rw [← (exec_frame h).stack hcall']; rfl
  rw [hkept]
  exact exec_setHidden hst hcall' hret h b s.stack

/-- Every instruction but CALL and RET runs alike whatever the stack slots hold, and leaves them. -/
theorem exec_setStack {i : Instr} (hcall : ∀ nnn, i ≠ .call nnn) (hret : i ≠ .ret) {s t : State}
    (h : exec i s = .next t) (v : Vector Word 16) :
    exec i { s with stack := v } = .next { t with stack := v } := by
  by_cases hst : ∃ x, i = .ldStVx x
  · obtain ⟨x, rfl⟩ := hst
    cases h
    rfl
  have hst' : ∀ x, i ≠ .ldStVx x := fun x hi => hst ⟨x, hi⟩
  have hkept : ({ t with stack := v } : State) = t.setHidden s.st v := by rw [← (exec_frame h).st hst']; rfl
  rw [hkept]
  exact exec_setHidden hst' hcall hret h s.st v

/-- Whether and how an instruction raises an error depends on `sp`, `pc` and the parameters alone. -/
theorem exec_fault_of_eq {i : Instr} {s s' : State} {f : Fault} (h : exec i s = .fault f) (hsp : s'.sp = s.sp)
    (hpc : s'.pc = s.pc) (hconfig : s'.env.config = s.env.config) : exec i s' = .fault f := by
  rw [errorsAreRaisedExactlyThere i s', hsp, hpc, hconfig]
  exact (errorsAreRaisedExactlyThere i s f).1 h

/-- Settles O49: LD ST overwrites the timer, and no other instruction reads or writes it. -/
theorem soundTimerIsNeverRead : Obligations.SoundTimerIsNeverRead := by
  unfold Obligations.SoundTimerIsNeverRead
  refine fun i s b => ⟨fun t h => ?_, fun f h => ?_⟩
  · by_cases hst : ∃ x, i = .ldStVx x
    · obtain ⟨x, rfl⟩ := hst
      cases h
      exact ⟨_, rfl, rfl, .inr rfl⟩
    · exact ⟨t.setSt b, exec_setSt (fun x hi => hst ⟨x, hi⟩) h b, rfl, .inl rfl⟩
  · exact exec_fault_of_eq h rfl rfl rfl

/-! ## The stack -/

/-- A slot other than the one replaced. -/
theorem slot_set_of_ne (s : State) {j k : Nat} (hk : k < 16) (w : Word) (hne : j ≠ k) :
    ({ s with stack := s.stack.set k w hk } : State).slot j = s.slot j := by
  simp [State.slot, hne.symm]

/-- Pushing one address onto two stacks that agree on the slots in use. -/
theorem slot_push_congr {s s' : State} (hlive : ∀ j < s.sp.toNat, s'.slot j = s.slot j)
    (hsp : s'.sp = s.sp) (hlt : s.sp.toNat < 16) (p : Word) {j : Nat} (hj : j < (s.sp + 1).toNat) :
    (s'.push p).slot j = (s.push p).slot j := by
  rw [slot_push s' p j (hsp ▸ hlt), slot_push s p j hlt, hsp]
  split
  · rfl
  · exact hlive j (by bv_omega)

/-- Settles O50: CALL overwrites the slot at `sp`, RET reads the one below, and no other instruction reads a slot. -/
theorem deadStackSlotsAreNeverRead : Obligations.DeadStackSlotsAreNeverRead := by
  unfold Obligations.DeadStackSlotsAreNeverRead
  refine fun i s k hk w hsp => ⟨fun t h => ?_, fun f h => exec_fault_of_eq h rfl rfl rfl⟩
  have hlive : ∀ j < s.sp.toNat, ({ s with stack := s.stack.set k w hk } : State).slot j = s.slot j :=
    fun j hj => slot_set_of_ne s hk w (hj.trans_le hsp).ne
  by_cases hcall : ∃ nnn, i = .call nnn
  · obtain ⟨nnn, rfl⟩ := hcall
    obtain ⟨hlt, rfl⟩ := exec_call_next h
    exact ⟨_, exec_call_of_lt nnn hlt, rfl, fun j hj => slot_push_congr hlive rfl hlt (s.pc + 2) hj⟩
  by_cases hret : i = .ret
  · subst hret
    obtain ⟨hne, hslot, ht⟩ := exec_ret_next h
    have hpos : s.sp.toNat - 1 < s.sp.toNat := by bv_omega
    refine ⟨_, exec_ret_of_slot hne ((hlive _ hpos).trans hslot), ?_, fun j hj => ?_⟩
    · rw [ht]; rfl
    · rw [ht] at hj ⊢
      have hj' : j < (s.sp - 1).toNat := hj
      exact hlive j (by bv_omega)
  · have hcall' : ∀ nnn, i ≠ .call nnn := fun nnn hi => hcall ⟨nnn, hi⟩
    refine ⟨_, exec_setStack hcall' hret h _, rfl, fun j hj => ?_⟩
    rw [(exec_frame h).sp hcall' hret] at hj
    have hslots : t.slot j = s.slot j := by unfold State.slot; rw [(exec_frame h).stack hcall']
    rw [hslots]
    exact hlive j hj

/-- Settles O51: RET pops what CALL has pushed. -/
theorem callThenReturnComesBack : Obligations.CallThenReturnComesBack := by
  unfold Obligations.CallThenReturnComesBack
  intro s nnn hlt
  have hcall := exec_call_of_lt nnn hlt
  generalize ht : (s.push (s.pc + 2)).setPc (nnn.setWidth 16) = t at hcall
  have hsp : t.sp = s.sp + 1 := by rw [← ht]; rfl
  have hslot : ∀ j, t.slot j = if j = s.sp.toNat then some (s.pc + 2) else s.slot j := fun j => by
    rw [← ht]; exact slot_push s _ j hlt
  have hret : exec .ret t = .next ((t.setSp s.sp).setPc (s.pc + 2)) := by
    have hback : t.sp - 1 = s.sp := by rw [hsp]; exact BitVec.add_sub_cancel s.sp 1
    have hnew : t.sp.toNat - 1 = s.sp.toNat := by rw [hsp]; bv_omega
    rw [← hback]
    exact exec_ret_of_slot (by rw [hsp]; bv_omega) (by rw [hnew, hslot, if_pos rfl])
  refine ⟨t, _, hcall, hret, ?_, fun j hj => ?_⟩
  · rw [← ht]; rfl
  · rw [State.setPc_slot, State.setSp_slot, hslot, if_neg (by omega)]

end Sys2Proof.Machine
end

section
/-! Stores and the bytes fetched (20_memory.md R33, R43), the font (10_state.md R25), the ROM load and a word placed at
`pc` (70_reset_and_hazards.md R193), and O52 and O54 to O56. -/

namespace Sys2Proof.Machine

/-! ## A fetch of stored bytes -/

/-- A byte of the block LD [I] stores, at any address that names it modulo 4096. -/
theorem memRead_of_storeRegs {s t : State} {x k : Nibble} (h : exec (.storeRegs x) s = .next t)
    (hk : k.toNat ≤ x.toNat) {a : Nat} (ha : a % 4096 = (s.I.toNat + k.toNat) % 4096) : t.memRead a = s.reg k := by
  obtain ⟨-, u, hu, hstored, -⟩ := blockStoreWritesExactlyItsBytes s x
  cases h.symm.trans hu
  rw [← memRead_mod, ha]
  exact hstored k hk

/-- Settles O52: the two bytes fetched are bytes `k` and `k + 1` of the block. -/
theorem fetchSeesTheLatestStore : Obligations.FetchSeesTheLatestStore := by
  unfold Obligations.FetchSeesTheLatestStore
  intro s t x k h hk hpc
  have hsucc : (k + 1).toNat = k.toNat + 1 := by bv_omega
  rw [fetchWord_toNat, memRead_of_storeRegs h hk.le hpc,
    memRead_of_storeRegs (k := k + 1) h (by omega) (by omega)]

/-! ## The font -/

/-- Settles O54: 80 closed bytes, read from the reset contents. -/
theorem resetHoldsTheFontAndTheEntryPoint : Obligations.ResetHoldsTheFontAndTheEntryPoint := by
  unfold Obligations.ResetHoldsTheFontAndTheEntryPoint
  exact ⟨by decide, rfl⟩

/-! ## Bytes written at consecutive addresses -/

/-- Bytes written change no part of the state but memory. -/
theorem writeBytes_eq_setMem (s : State) (a : Nat) (bs : List Byte) :
    s.writeBytes a bs = s.setMem (s.writeBytes a bs).mem := by
  induction bs generalizing s a with
  | nil => rfl
  | cons b bs ih =>
    rw [State.writeBytes, ih]
    rfl

/-- An address that is none of those written keeps its byte. -/
theorem memRead_writeBytes_other (s : State) (a : Nat) (bs : List Byte) {c : Nat}
    (h : ∀ j < bs.length, c % 4096 ≠ (a + j) % 4096) : (s.writeBytes a bs).memRead c = s.memRead c := by
  induction bs generalizing s a with
  | nil => rfl
  | cons b bs ih =>
    have hne : c % 4096 ≠ a % 4096 := h 0 (Nat.succ_pos _)
    rw [State.writeBytes, ih, memRead_memWrite, if_neg hne]
    intro j hj
    rw [Nat.add_assoc, Nat.add_comm 1 j]
    exact h (j + 1) (Nat.succ_lt_succ hj)

/-- Each byte written is read back, as at most 4096 bytes do not come round to their own start. -/
theorem memRead_writeBytes_at (s : State) (a : Nat) (bs : List Byte) (hlen : bs.length ≤ 4096) {j : Nat}
    (hj : j < bs.length) : (s.writeBytes a bs).memRead (a + j) = bs[j] := by
  induction bs generalizing s a j with
  | nil => exact absurd hj (Nat.not_lt_zero j)
  | cons b bs ih =>
    rw [List.length_cons] at hlen hj
    cases j with
    | zero =>
      rw [State.writeBytes, memRead_writeBytes_other _ _ _ (fun k hk => by omega), memRead_memWrite]
      exact if_pos rfl
    | succ j =>
      have hrest := ih (s.memWrite a b) (a + 1) (by omega) (Nat.lt_of_succ_lt_succ hj)
      rwa [Nat.add_assoc, Nat.add_comm 1 j] at hrest

/-- Settles O55: the load writes the image's bytes at consecutive addresses, which lie below 4096. -/
theorem romLoadPlacesTheImage : Obligations.RomLoadPlacesTheImage := by
  unfold Obligations.RomLoadPlacesTheImage
  refine fun rom => ⟨fun hlen => ?_, fun hlen => if_pos hlen⟩
  refine ⟨State.reset.writeBytes 0x200 rom, if_neg (Nat.not_lt_of_le hlen), fun j hj => ?_, fun a ha hout => ?_, ?_⟩
  · exact memRead_writeBytes_at _ _ rom (by omega) hj
  · exact memRead_writeBytes_other _ _ rom fun j hj => by omega
  · rw [writeBytes_eq_setMem]
    rfl

/-! ## A word placed at `pc` -/

theorem fetchWord_placeWord (s : State) (w : Word) : (s.placeWord w).fetchWord = w := by
  have hpc : (s.placeWord w).pc = s.pc := by rw [State.placeWord, writeBytes_eq_setMem]; rfl
  have hread : ∀ j (hj : j < 2), (s.placeWord w).memRead (s.pc.toNat + j) =
      [w.extractLsb' 8 8, w.extractLsb' 0 8][j] :=
    fun j hj => memRead_writeBytes_at s _ _ (by simp) hj
  have hhi : (s.placeWord w).memRead s.pc.toNat = w.extractLsb' 8 8 := hread 0 Nat.two_pos
  have hlo : (s.placeWord w).memRead (s.pc.toNat + 1) = w.extractLsb' 0 8 := hread 1 Nat.one_lt_two
  rw [State.fetchWord, hpc, hhi, hlo, wordOfBytes_split]

theorem memRead_placeWord_other (s : State) (w : Word) {a : Nat} (h0 : a % 4096 ≠ s.pc.toNat % 4096)
    (h1 : a % 4096 ≠ (s.pc.toNat + 1) % 4096) : (s.placeWord w).memRead a = s.memRead a := by
  refine memRead_writeBytes_other s _ _ fun j hj => ?_
  match j, hj with
  | 0, _ => exact h0
  | 1, _ => exact h1

/-- The next instruction placed: a word at `pc`, and the schedule so changed that the next step is the cycle. -/
theorem withFetchWord_eq (s : State) (nbits w : Nat) :
    ∃ l, s.withFetchWord nbits w = (s.placeWord (BitVec.ofNat 16 (w % 2 ^ nbits))).setSchedule l ∧
      step (s.withFetchWord nbits w) = cycle (s.placeWord (BitVec.ofNat 16 (w % 2 ^ nbits))) := by
  have hplace : ∀ v, s.placeWord v = s.setMem (s.placeWord v).mem := fun v => writeBytes_eq_setMem s _ _
  generalize hp : s.placeWord (BitVec.ofNat 16 (w % 2 ^ nbits)) = p
  have henv : p.env = s.env := by rw [← hp, hplace]; rfl
  cases hs : s.env.schedule with
  | nil =>
    have hw : s.withFetchWord nbits w = p := by simp only [State.withFetchWord, hs, hp]
    refine ⟨p.env.schedule, hw, ?_⟩
    rw [hw, step, henv, hs]
  | cons e rest =>
    have hw : s.withFetchWord nbits w = p.setSchedule (.cycle :: e :: rest) := by
      simp only [State.withFetchWord, hs, hp]
    refine ⟨_, hw, ?_⟩
    rw [hw]
    show cycle (p.setSchedule (e :: rest)) = cycle p
    rw [← hs, ← henv]
    rfl

/-- Settles O56: the word placed, and nothing else changed but the schedule, which the step puts back. -/
theorem placedWordIsRunNext : Obligations.PlacedWordIsRunNext := by
  unfold Obligations.PlacedWordIsRunNext
  intro s w hw
  obtain ⟨l, hplaced, hstep⟩ := withFetchWord_eq s 16 w
  rw [show w % 2 ^ 16 = w from Nat.mod_eq_of_lt hw] at hplaced hstep
  refine ⟨?_, fun a h0 h1 => ?_, ?_⟩
  · rw [hplaced, State.setSchedule_fetchWord, fetchWord_placeWord]
  · rw [hplaced, State.setSchedule_memRead, memRead_placeWord_other s _ h0 h1]
  · rw [hstep, hplaced, State.setSchedule_mem]
    exact congrArg cycle (writeBytes_eq_setMem s _ _)

end Sys2Proof.Machine
end

section
/-! Runs that change nothing but the recorded status: the parked state (70_reset_and_hazards.md R198) and the key wait
(R197), and O57 and O58. -/

namespace Sys2Proof.Machine

/-- Where the dispatched instruction leaves the state as it is, a cycle records Ok and changes nothing else. -/
theorem step_of_exec_self {s : State} {i : Instr} (hs : s.env.schedule = []) (hfetch : s.fetchable)
    (hdecode : decode s.fetchWord = .ok i) (hexec : exec i s = .next s) : step s = .next (s.setStatus .ok) := by
  rw [step_of_fetchable (.inl ⟨hs, rfl⟩) hfetch, dispatchWord_of_ok hdecode, hexec]
  rfl

/-- If every state with `P` steps to itself with Ok recorded, and recording Ok keeps `P`, then so does every run, by
induction on its length. -/
theorem run_idle {P : State → Prop} (hstep : ∀ s, P s → step s = .next (s.setStatus .ok))
    (hkeep : ∀ s, P s → P (s.setStatus .ok)) (k : Nat) {s : State} (hs : P s) :
    ∃ t, Host.Core.run Sys2Proof.core k s = .next t ∧ view t = { view s with env := t.env } ∧
      t.env = { s.env with status := t.env.status } := by
  induction k generalizing s with
  | zero => exact ⟨s, rfl, rfl, rfl⟩
  | succ k ih =>
    obtain ⟨t, hrun, hview, henv⟩ := ih (hkeep s hs)
    refine ⟨t, ?_, hview, henv⟩
    rw [core_run_succ, hstep s hs]
    exact hrun

/-- A class and an address joined, the class in the high nibble (30_encoding.md R52). -/
theorem wordNNN_toNat (c : Nibble) (nnn : Addr) : (wordNNN c nnn).toNat = c.toNat * 4096 + nnn.toNat := by
  have hnnn : nnn.toNat < 2 ^ 12 := nnn.isLt
  rw [wordNNN, BitVec.toNat_cast, BitVec.toNat_append, ← Nat.shiftLeft_add_eq_or_of_lt hnnn, Nat.shiftLeft_eq]

/-- In a parked state the word at `pc` is the jump to `pc` itself. -/
theorem decode_of_parked {s : State} (h : s.parked) : decode s.fetchWord = .ok (.jp (s.pc.setWidth 12)) := by
  obtain ⟨hpc, hword⟩ := h
  have hjump : s.fetchWord = encode (.jp (s.pc.setWidth 12)) := by
    apply BitVec.eq_of_toNat_eq
    rw [hword, encode, wordNNN_toNat, BitVec.toNat_add, BitVec.toNat_setWidth]
    have hclass : (0x1 : Nibble).toNat = 1 := rfl
    have hbase : (0x1000#16).toNat = 4096 := rfl
    omega
  rw [hjump]
  exact Laws.RoundTrip.jp _ rfl

theorem exec_of_parked {s : State} (h : s.parked) : exec (.jp (s.pc.setWidth 12)) s = .next s := by
  have htarget : (s.pc.setWidth 12).setWidth 16 = s.pc := by
    have := h.1
    apply BitVec.eq_of_toNat_eq
    simp only [BitVec.toNat_setWidth]
    omega
  show Host.Outcome.next (s.setPc ((s.pc.setWidth 12).setWidth 16)) = .next s
  rw [htarget]
  rfl

/-- Settles O57: the jump leaves a parked state as it is. -/
theorem parkedStateStepsToItself : Obligations.ParkedStateStepsToItself := by
  unfold Obligations.ParkedStateStepsToItself
  intro k s hparked hfetch hs
  refine run_idle (P := fun s => s.parked ∧ s.fetchable ∧ s.env.schedule = []) ?_ (fun _ h => h) k ⟨hparked, hfetch, hs⟩
  rintro s ⟨hparked, hfetch, hs⟩
  exact step_of_exec_self hs hfetch (decode_of_parked hparked) (exec_of_parked hparked)

/-- Settles O58: with no key down the key wait leaves the state as it is. -/
theorem keyWaitPollsWhileNoKeyIsDown : Obligations.KeyWaitPollsWhileNoKeyIsDown := by
  unfold Obligations.KeyWaitPollsWhileNoKeyIsDown
  intro k s x hdecode hkeypad hfetch hs
  refine run_idle
    (P := fun s => decode s.fetchWord = .ok (.ldVxK x) ∧ s.keypad = 0 ∧ s.fetchable ∧ s.env.schedule = [])
    ?_ (fun _ h => h) k ⟨hdecode, hkeypad, hfetch, hs⟩
  rintro s ⟨hdecode, hkeypad, hfetch, hs⟩
  exact step_of_exec_self hs hfetch hdecode (exec_ldVxK_of_no_key x hkeypad)

end Sys2Proof.Machine
end
